-- ==== Sys2Proof/Word.lean ====
section
/-! DEFINITION. The plain types of the block: containers for limbs and bytes, the four operand
widths, the three signedness combinations, and the (hi, lo) limb pair of a wide value. -/

namespace Sys2Proof

/-- The container of one limb or operand: WMAX = 64 bits (00_scope.md section 4, D5). A w-bit value
stands in its low w bits and the others are zero (log 1). -/
abbrev Word := BitVec 64

/-- One byte of the byte view (R26). -/
abbrev Byte := BitVec 8

/-- The operand width w of an operation (R2). Width 128 does not exist (C3, D5). -/
inductive Width where
  | w8
  | w16
  | w32
  | w64
deriving DecidableEq, Repr

/-- The number w of bits. -/
abbrev Width.bits : Width → Nat
  | .w8 => 8
  | .w16 => 16
  | .w32 => 32
  | .w64 => 64

/-- The signedness combinations the document defines (R35): both unsigned, both signed, and X signed
with Y unsigned. -/
inductive Signedness where
  | uu
  | ss
  | su
deriving DecidableEq, Repr

/-- A wide value of two n-bit limbs (R6). Two wide values are equal exactly when their limbs are (R15). -/
structure Wide (n : Nat) where
  hi : BitVec n
  lo : BitVec n
deriving DecidableEq, Repr

end Sys2Proof
end

