-- ==== Sys2Proof/Config.lean ====
section
/-! DEFINITION. What one implementation fixes: the byte order of the byte view, which the spec leaves
open (R26, D8, I7). -/

namespace Sys2Proof

/-- The order of the bytes of a byte view (R26). -/
inductive ByteOrder where
  | little
  | big
deriving DecidableEq, Repr, Inhabited

/-- BYTE_ORDER, the target machine's byte order (R26). It has no body: the spec leaves it open, so
nothing can be proved of its value, and a claim about it holds for both (log 11). -/
opaque Config.byteOrder : ByteOrder

end Sys2Proof
end

