-- ==== Sys2Proof/Syntax.lean ====
section
/-! DEFINITION. The operations of the block, one constructor per row of spec/opcode_table.json (R37).
Each carries its width and its two operands X and Y, in that order (R38, R43). -/

namespace Sys2Proof

/-- One operation with its operands (R34, R37). -/
inductive Instr where
  | mulu (w : Width) (x y : Word)     -- unsigned × unsigned, full (R52)
  | muls (w : Width) (x y : Word)     -- signed × signed, full (R61)
  | mulsu (w : Width) (x y : Word)    -- signed × unsigned, full (R65)
  | mulhu (w : Width) (x y : Word)    -- unsigned × unsigned, high word (R71)
  | mulhs (w : Width) (x y : Word)    -- signed × signed, high word (R72)
  | mulhsu (w : Width) (x y : Word)   -- signed × unsigned, high word (R73)
deriving DecidableEq, Repr

/-- The operand width of an operation. -/
def Instr.width : Instr → Width
  | .mulu w _ _ => w
  | .muls w _ _ => w
  | .mulsu w _ _ => w
  | .mulhu w _ _ => w
  | .mulhs w _ _ => w
  | .mulhsu w _ _ => w

/-- The operand X, the signed one of a mixed operation (R43). -/
def Instr.x : Instr → Word
  | .mulu _ x _ => x
  | .muls _ x _ => x
  | .mulsu _ x _ => x
  | .mulhu _ x _ => x
  | .mulhs _ x _ => x
  | .mulhsu _ x _ => x

/-- The operand Y. -/
def Instr.y : Instr → Word
  | .mulu _ _ y => y
  | .muls _ _ y => y
  | .mulsu _ _ y => y
  | .mulhu _ _ y => y
  | .mulhs _ _ y => y
  | .mulhsu _ _ y => y

end Sys2Proof
end

