-- ==== Sys2Proof/WellFormed.lean ====
section
/-! DEFINITION. When an operation is expressible on the ports: X and Y are w-bit values (R2, R10, R34). -/

namespace Sys2Proof

/-- The value in the container is a w-bit value. -/
def Width.fits (w : Width) (v : Word) : Bool := decide (v.toNat < 2 ^ w.bits)

/-- Both operands are w bits wide (R2, R34). Nothing else can be wrong with an operation (R41). -/
def Instr.wellFormed (i : Instr) : Bool := i.width.fits i.x && i.width.fits i.y

end Sys2Proof
end

