-- ==== Sys2Proof/Decode.lean ====
section
/-! DEFINITION. The command word: its fields, the decoder (total, rejecting by name), the encoder
written from the same tables (R34 to R40), and the document's call interface mapped onto it (R39). -/

namespace Sys2Proof

/-- What the consumer drives on the input ports of one transaction (R34). CMD is 5 bits, held in a
byte as the opcode table numbers it; a value that needs more bits is refused (log 2). -/
structure Transaction where
  cmd : BitVec 8
  x : Word
  y : Word
deriving DecidableEq, Repr

/-- Why a transaction is no operation. -/
inductive DecodeError where
  /-- The command value needs more than the 5 bits of CMD (R34). -/
  | notACommandWord
  /-- SGN = 11, a reserved command word (R40). -/
  | reservedCommand
  /-- X or Y needs more than the w bits of its port (R34, R45; spec/95_test_vectors.md part 2.8). -/
  | operandTooWide
deriving DecidableEq, Repr

/-- The WSEL code of a width (R36). -/
def Width.wsel : Width → BitVec 2
  | .w8 => 0b00#2
  | .w16 => 0b01#2
  | .w32 => 0b10#2
  | .w64 => 0b11#2

/-- The width a WSEL code selects (R36). -/
def widthOfWsel (c : BitVec 2) : Width :=
  match c with
  | 0b00#2 => .w8
  | 0b01#2 => .w16
  | 0b10#2 => .w32
  | _ => .w64

/-- The SGN code of a signedness combination (R35). -/
def Signedness.sgn : Signedness → BitVec 2
  | .uu => 0b00#2
  | .ss => 0b01#2
  | .su => 0b10#2

/-- CMD[4:0] from its fields WSEL = CMD[4:3], HIGH = CMD[2], SGN = CMD[1:0] (R34). -/
def commandWord (wsel : BitVec 2) (high : Bool) (sgn : BitVec 2) : BitVec 5 :=
  wsel ++ BitVec.ofBool high ++ sgn

/-- CMD[4:3] (R36). -/
def wselField (c : BitVec 5) : BitVec 2 := c.extractLsb' 3 2

/-- CMD[2] (R37). -/
def highField (c : BitVec 5) : Bool := c.getLsbD 2

/-- CMD[1:0] (R35). -/
def sgnField (c : BitVec 5) : BitVec 2 := c.extractLsb' 0 2

/-- The operation HIGH and SGN select together (R37); none for the reserved SGN = 11 (R40). -/
def selectOperation (high : Bool) (sgn : BitVec 2) : Option (Width → Word → Word → Instr) :=
  match high, sgn with
  | false, 0b00#2 => some .mulu
  | false, 0b01#2 => some .muls
  | false, 0b10#2 => some .mulsu
  | true, 0b00#2 => some .mulhu
  | true, 0b01#2 => some .mulhs
  | true, 0b10#2 => some .mulhsu
  | _, _ => none

/-- Refuses operands that do not fit the w-bit ports (log 3). -/
def checkOperands (i : Instr) : Except DecodeError Instr :=
  if i.wellFormed then .ok i else .error .operandTooWide

/-- The operation the 5 bits of CMD select, with its operands (R34, R37, R40). -/
def decodeCommand (c : BitVec 5) (x y : Word) : Except DecodeError Instr :=
  match selectOperation (highField c) (sgnField c) with
  | none => .error .reservedCommand
  | some operation => checkOperands (operation (widthOfWsel (wselField c)) x y)

/-- The decoder: total, and every transaction that is no operation is refused by name (R34, R40). -/
def decode (t : Transaction) : Except DecodeError Instr :=
  if t.cmd.toNat < 32 then decodeCommand (t.cmd.setWidth 5) t.x t.y else .error .notACommandWord

/-- The HIGH bit of an operation (R37). -/
def Instr.high : Instr → Bool
  | .mulu _ _ _ => false
  | .muls _ _ _ => false
  | .mulsu _ _ _ => false
  | .mulhu _ _ _ => true
  | .mulhs _ _ _ => true
  | .mulhsu _ _ _ => true

/-- The signedness combination of an operation (R35, R37). -/
def Instr.signedness : Instr → Signedness
  | .mulu _ _ _ => .uu
  | .muls _ _ _ => .ss
  | .mulsu _ _ _ => .su
  | .mulhu _ _ _ => .uu
  | .mulhs _ _ _ => .ss
  | .mulhsu _ _ _ => .su

/-- CMD of an operation (R34). -/
def Instr.command (i : Instr) : BitVec 5 := commandWord i.width.wsel i.high i.signedness.sgn

/-- The transaction that issues an operation (R34). -/
def encode (i : Instr) : Transaction := ⟨i.command.setWidth 8, i.x, i.y⟩

/-- SGN for the signedness flags of the document's call interface; (false, true) has no operation and
maps to the reserved code (R39). -/
def sgnOfFlags (xSigned ySigned : Bool) : BitVec 2 :=
  match xSigned, ySigned with
  | false, false => 0b00#2
  | true, true => 0b01#2
  | true, false => 0b10#2
  | false, true => 0b11#2

/-- The transaction of a call of the document's interface: `multiply_full` (high = false) or
`multiply_high` (high = true) of (width, x_signed?, y_signed?, x, y) (R39). -/
def callTransaction (high : Bool) (w : Width) (xSigned ySigned : Bool) (x y : Word) : Transaction :=
  ⟨(commandWord w.wsel high (sgnOfFlags xSigned ySigned)).setWidth 8, x, y⟩

/-- The transaction of a word of the opcode table: the table gives the row's bits CMD and no bits to
the operands, which are then zero (log 2). -/
def tableTransaction (nbits w : Nat) : Transaction := ⟨BitVec.ofNat 8 (w % 2 ^ nbits), 0#64, 0#64⟩

/-- What the decoder reads from a word of the opcode table. -/
def decodeTableWord (nbits w : Nat) : Option Instr :=
  match decode (tableTransaction nbits w) with
  | .ok i => some i
  | .error _ => none

end Sys2Proof
end

