-- ==== Sys2Proof/Machine/State.lean ====
section
/-! DEFINITION. The state as plain data: the result register pair RES, which is all the block keeps
(R11, R24), and beside it the requests and returned values that pass through its ports. -/

namespace Sys2Proof.Machine

/-- The result register pair (R11). `none` is the spec's ⊥, "holds no value" (00_scope.md section 5). -/
structure Res where
  /-- RES.w, the width tag. -/
  w : Option Width
  /-- RES.hi, a w-bit value or ⊥. -/
  hi : Option Word
  /-- RES.lo, a w-bit value or ⊥. -/
  lo : Option Word
deriving DecidableEq, Repr

/-- RES holding no value, as after reset (R22). -/
def Res.empty : Res := ⟨none, none, none⟩

/-- A request that reaches the block from outside (R7, R14, R26, R88). -/
inductive Event where
  /-- The consumer issues an operation (R34). -/
  | issue (t : Transaction)
  /-- The consumer reads RES.w (R14). -/
  | readWidth
  /-- The consumer reads RES.hi as a value of width w (R14). -/
  | readHi (w : Width)
  /-- The consumer reads RES.lo as a value of width w (R14). -/
  | readLo (w : Width)
  /-- The consumer reads the byte view of RES (R26). -/
  | readView
  /-- Reset is applied between two operations (R88). -/
  | reset
deriving DecidableEq, Repr

/-- The value an operation returns on its output ports (R34): HI and LO, or HI alone. -/
inductive Returned where
  | full (w : Width) (hi lo : Word)
  | high (w : Width) (hi : Word)
deriving DecidableEq, Repr

/-- The value a read of RES gave (R14, R26). -/
inductive ReadValue where
  | width (w : Width)
  | hi (w : Width) (v : Word)
  | lo (w : Width) (v : Word)
  | view (bytes : List Byte)
deriving DecidableEq, Repr

/-- The machine. `res` is the whole state of the block (R24); the other fields are the model's own and
hold what passes through the ports (log 4, log 6). -/
structure State where
  /-- The result register pair (R11). -/
  res : Res
  /-- The requests not yet performed, oldest first, in the order they reach the block (R31, R32). -/
  pending : List Event
  /-- The values operations returned, oldest first (R94). -/
  returned : List Returned
  /-- The values reads of RES gave, oldest first (R14). -/
  reads : List ReadValue
deriving DecidableEq, Repr

/-- What stops the machine as a model fault. No operation raises one (R76): only a read does. -/
inductive Fault where
  /-- Raised by a read of RES.w, or of the byte view, while RES.w is ⊥ (R14, R22, D7, I3: "a read is a
  fault"). Safe: the spec gives no value, and the model gives none. -/
  | resWidthEmpty
  /-- Raised by a read of RES.hi while it is ⊥ (R14, R22, D7, I3). Safe. -/
  | resHiEmpty
  /-- Raised by a read of RES.lo while it is ⊥, as after a high variant (R14, R70, D6,
  I2). Safe. -/
  | resLoEmpty
deriving DecidableEq, Repr

/-- What the machine gives no meaning to. -/
inductive Refusal where
  /-- Raised by an arm of exec that has no meaning yet. Safe. None is left in this model. -/
  | notModelled (mnemonic : String)
  /-- Raised on issuing a command word with SGN = 11 (R40, R78). Safe: the spec leaves the hardware's
  behaviour unspecified. -/
  | reservedCommand
  /-- Raised on issuing a command value of more than 5 bits, which the port cannot carry (R34). Safe. -/
  | notACommandWord
  /-- Raised on issuing an operand of more than w bits, which the port cannot carry (R34, R45). Safe. -/
  | operandTooWide
  /-- Raised by a read of RES.hi or RES.lo at a width other than RES.w (R14, D21). Safe. -/
  | widthMismatch
  /-- Raised by a read of the byte view of a high-variant result (R29, D22). Safe. -/
  | noByteView
deriving DecidableEq, Repr

/-- The machine right after reset: RES holds no value (R22) and nothing has been issued, returned or
read (log 4, log 6). -/
def State.reset : State := ⟨Res.empty, [], [], []⟩

end Sys2Proof.Machine
end

