-- ==== Sys2Proof/Machine/Operands.lean ====
section
/-! DEFINITION. The operand ports and the readings of values: sampling a w-bit operand, uint and sint
of an operand by its signedness (R4, R5, R35, R38), limbs (R3, R46), and the readings of wide values
and of RES (R6, R15). -/

namespace Sys2Proof

/-- The w-bit value on a port: the low w bits of the container. On a well-formed operation this drops
nothing (log 3). -/
def portValue (w : Width) (v : Word) : BitVec w.bits := v.setWidth w.bits

/-- A w-bit value in its container (log 1). -/
def Width.word (w : Width) (v : BitVec w.bits) : Word := v.setWidth 64

/-- The reading of an operand: sint if the operation reads it signed, else uint (R4, R5). -/
def readAs {n : Nat} (signed : Bool) (v : BitVec n) : Int := if signed then v.toInt else v.toNat

/-- X is read signed by the ss and su combinations (R35). -/
def Signedness.xSigned : Signedness → Bool
  | .uu => false
  | .ss => true
  | .su => true

/-- Y is read signed by the ss combination only (R35). -/
def Signedness.ySigned : Signedness → Bool
  | .uu => false
  | .ss => true
  | .su => false

/-- The low h-bit limb v[h-1:0] of a w-bit value, h = w/2 (R3, R46). -/
def lowLimb {n : Nat} (v : BitVec n) : BitVec (n / 2) := v.extractLsb' 0 (n / 2)

/-- The high h-bit limb v[w-1:h] of a w-bit value (R3, R46). -/
def highLimb {n : Nat} (v : BitVec n) : BitVec (n / 2) := v.extractLsb' (n / 2) (n / 2)

/-- The concatenation of the limbs, hi in the high bits (00_scope.md section 5, R6). -/
def Wide.toBits {n : Nat} (p : Wide n) : BitVec (n + n) := p.hi ++ p.lo

/-- The unsigned reading of a wide value (R6). -/
def Wide.uint {n : Nat} (p : Wide n) : Nat := p.hi.toNat * 2 ^ n + p.lo.toNat

/-- The signed reading of a wide value (R6). -/
def Wide.sint {n : Nat} (p : Wide n) : Int := p.toBits.toInt

/-- The wide value RES holds, when all three cells hold a value (R11). -/
def Machine.Res.wide (r : Machine.Res) : Option (Σ w : Width, Wide w.bits) :=
  match r.w, r.hi, r.lo with
  | some w, some hi, some lo => some ⟨w, portValue w hi, portValue w lo⟩
  | _, _, _ => none

/-- RES read unsigned (R15). -/
def Machine.Res.uint (r : Machine.Res) : Option Nat := r.wide.map fun p => p.2.uint

/-- RES read signed (R15). -/
def Machine.Res.sint (r : Machine.Res) : Option Int := r.wide.map fun p => p.2.sint

end Sys2Proof
end

