-- ==== Sys2Proof/Machine/Flags.lean ====
section
/-! DEFINITION. The block has no status flags (R18). The one-bit signals inside one operation are
computed here: the kernel's carries (R48, R49), the borrow of the deferred negation (R57), the sign bit
(R54), each with the equivalent detection the spec allows (I4). -/

namespace Sys2Proof

/-- The carry out of an n-bit addition: c1 of R48 and c2 of R49. -/
def carryOut {n : Nat} (a b : BitVec n) : Bool := decide (2 ^ n ≤ a.toNat + b.toNat)

/-- The same carry detected by comparing the n-bit sum with an addend (R48, R49, I4). -/
def carryByComparison {n : Nat} (sum a : BitVec n) : Bool := decide (sum.toNat < a.toNat)

/-- The borrow hib of the decrement of lo1 to lo2 (R57). -/
def borrowOut {n : Nat} (lo2 lo1 : BitVec n) : Bool := decide (lo1.toNat < lo2.toNat)

/-- The same borrow detected from lo1 alone (R57, R69). -/
def borrowByZero {n : Nat} (lo1 : BitVec n) : Bool := decide (lo1 = 0#n)

/-- A one-bit signal zero-extended to n bits (R50, R58). -/
def bit {n : Nat} (b : Bool) : BitVec n := if b then 1#n else 0#n

/-- The sign bit v[w-1] (R54, C2). -/
def signBit {n : Nat} (v : BitVec n) : Bool := v.getLsbD (n - 1)

end Sys2Proof
end

