-- ==== Sys2Proof/Machine/Ops.lean ====
section
/-! DEFINITION. The shared operations: the exact product and its limbs (R1, R8, R68), the completion of
a full and of a high operation (R12, R13), the reads of RES (R14) and the byte view (R26 to R29), and
reset (R88). The block takes no exception and returns from none (R76, R81, R82), so there is no such
operation here. -/

namespace Sys2Proof

/-- bits_2w(z) split into its limbs (00_scope.md section 5, R6). -/
def Wide.ofInt (n : Nat) (z : Int) : Wide n :=
  ⟨(BitVec.ofInt (n + n) z).extractLsb' n n, (BitVec.ofInt (n + n) z).extractLsb' 0 n⟩

/-- The exact product of the operands as the operation reads them (R1, R35). -/
def exactProduct {n : Nat} (sg : Signedness) (x y : BitVec n) : Int :=
  readAs sg.xSigned x * readAs sg.ySigned y

/-- The wide value of a full variant: the contract of R52, R61 and R65 (R8, D25). -/
def fullProduct {n : Nat} (sg : Signedness) (x y : BitVec n) : Wide n :=
  Wide.ofInt n (exactProduct sg x y)

/-- The high word of a high variant: bits_w(p >> w), with p the exact product as a 2w-bit value and the
shift a logical one (R68). -/
def highProduct {n : Nat} (sg : Signedness) (x y : BitVec n) : BitVec n :=
  (BitVec.ofInt (n + n) (exactProduct sg x y) >>> n).setWidth n

/-- Byte i of the byte view of P, counted from the least significant byte: bits_8(P >> 8·i) (R27). -/
def byteAt {m : Nat} (p : BitVec m) (i : Nat) : Byte := (p >>> (8 * i)).setWidth 8

/-- The byte view of a wide value, B[0] first, built by shifts from the limbs (R26, R27, R28). -/
def Wide.view {n : Nat} (o : ByteOrder) (p : Wide n) : List Byte :=
  match o with
  | .little => (List.range (2 * n / 8)).map fun i => byteAt p.toBits i
  | .big => (List.range (2 * n / 8)).map fun i => byteAt p.toBits (2 * n / 8 - 1 - i)

/-- The value of a byte sequence whose first byte is the least significant. -/
def valueLeastFirst : List Byte → Nat
  | [] => 0
  | b :: rest => b.toNat + 256 * valueLeastFirst rest

/-- The value a byte sequence stands for when read back in a byte order (R29). -/
def readBack (o : ByteOrder) (bytes : List Byte) : Nat :=
  match o with
  | .little => valueLeastFirst bytes
  | .big => valueLeastFirst bytes.reverse

namespace Machine

/-- A full variant completes: all three cells of RES in one step, and HI and LO are returned (R12). -/
def State.completeFull (s : State) (w : Width) (p : Wide w.bits) : State :=
  { s with
    res := ⟨some w, some (w.word p.hi), some (w.word p.lo)⟩
    returned := s.returned ++ [.full w (w.word p.hi) (w.word p.lo)] }

/-- A high variant completes: RES.w and RES.hi are written, RES.lo becomes ⊥, in one step, and HI is
returned (R13, R70). -/
def State.completeHigh (s : State) (w : Width) (hi : BitVec w.bits) : State :=
  { s with
    res := ⟨some w, some (w.word hi), none⟩
    returned := s.returned ++ [.high w (w.word hi)] }

/-- Reset of the block: RES holds no value (R22, R88). What has been issued or returned is the
consumer's, not the block's (log 14). -/
def State.resetBlock (s : State) : State := { s with res := Res.empty }

/-- A read of RES.w (R14). -/
def Res.readWidth (r : Res) : Host.Outcome Width Fault Refusal :=
  match r.w with
  | some w => .next w
  | none => .fault .resWidthEmpty

/-- A read of a limb cell at width w: a fault if it holds ⊥, refused if RES.w is another width (R14).
Where both hold, it faults (log 9). -/
def readCell (tag : Option Width) (cell : Option Word) (empty : Fault) (w : Width) :
    Host.Outcome Word Fault Refusal :=
  match cell with
  | none => .fault empty
  | some v => if tag = some w then .next v else .refused .widthMismatch

/-- A read of RES.hi as a value of width w (R14). -/
def Res.readHi (r : Res) (w : Width) : Host.Outcome Word Fault Refusal :=
  readCell r.w r.hi .resHiEmpty w

/-- A read of RES.lo as a value of width w (R14). -/
def Res.readLo (r : Res) (w : Width) : Host.Outcome Word Fault Refusal :=
  readCell r.w r.lo .resLoEmpty w

/-- The byte view of RES in a byte order: refused for a high-variant result (R29), a fault while RES
holds no value at all (R22, log 10). -/
def Res.readView (o : ByteOrder) (r : Res) : Host.Outcome (List Byte) Fault Refusal :=
  match r.w with
  | none => .fault .resWidthEmpty
  | some w =>
    match r.hi, r.lo with
    | some hi, some lo => .next (Wide.view o ⟨portValue w hi, portValue w lo⟩)
    | _, _ => .refused .noByteView

/-- A read gives its value to the consumer and changes nothing of the block. -/
def State.logRead {α : Type} (s : State) (tag : α → ReadValue) (o : Host.Outcome α Fault Refusal) :
    Host.Outcome State Fault Refusal :=
  match o with
  | .next v => .next { s with reads := s.reads ++ [tag v] }
  | .fault f => .fault f
  | .refused r => .refused r

/-- The refusal of a transaction that is no operation (R40, R78). -/
def refusalOf : DecodeError → Refusal
  | .notACommandWord => .notACommandWord
  | .reservedCommand => .reservedCommand
  | .operandTooWide => .operandTooWide

end Machine
end Sys2Proof
end

