-- ==== Sys2Proof/Machine/Unsigned.lean ====
section
/-! DEFINITION. The unsigned widening multiply kernel as a datapath (R46 to R50) and MULU (R52). -/

namespace Sys2Proof

/-- The signals of the kernel, which exist only within one operation (R20). -/
structure KernelSignals (n : Nat) where
  x0 : BitVec (n / 2)
  x1 : BitVec (n / 2)
  y0 : BitVec (n / 2)
  y1 : BitVec (n / 2)
  z0 : BitVec n
  z1 : BitVec n
  z2 : BitVec n
  z3 : BitVec n
  z4 : BitVec n
  c1 : Bool
  c2 : Bool
  hi : BitVec n
  lo : BitVec n
deriving DecidableEq, Repr

/-- A cross product of two limbs, exact in n bits (R47). -/
def crossProduct {n : Nat} (a b : BitVec (n / 2)) : BitVec n := BitVec.ofNat n (a.toNat * b.toNat)

/-- The low half and the high half the kernel assembles from the cross products (R48, R49, R50). -/
def assembleHalves {n : Nat} (z0 z1 z2 z3 : BitVec n) : Wide n :=
  let z4 := z1 + z2
  let c1 := carryOut z1 z2
  let t := z4 <<< (n / 2)
  let c2 := carryOut z0 t
  ⟨z3 + (z4 >>> (n / 2)) + (bit c1 <<< (n / 2)) + bit c2, z0 + t⟩

/-- All signals of the kernel on x and y (R46 to R50). -/
def kernelSignals {n : Nat} (x y : BitVec n) : KernelSignals n :=
  let x0 := lowLimb x
  let x1 := highLimb x
  let y0 := lowLimb y
  let y1 := highLimb y
  let z0 := crossProduct x0 y0
  let z1 := crossProduct x1 y0
  let z2 := crossProduct x0 y1
  let z3 := crossProduct x1 y1
  let p := assembleHalves z0 z1 z2 z3
  { x0 := x0, x1 := x1, y0 := y0, y1 := y1
    z0 := z0, z1 := z1, z2 := z2, z3 := z3
    z4 := z1 + z2
    c1 := carryOut z1 z2
    c2 := carryOut z0 ((z1 + z2) <<< (n / 2))
    hi := p.hi
    lo := p.lo }

/-- KERNEL(w, x, y) (R46 to R50). -/
def kernel {n : Nat} (x y : BitVec n) : Wide n := ⟨(kernelSignals x y).hi, (kernelSignals x y).lo⟩

/-- The four addends of the kernel's high half, summed without wrapping; R51 says the n-bit sum of R50
is this number. -/
def kernelHighSum {n : Nat} (x y : BitVec n) : Nat :=
  let k := kernelSignals x y
  k.z3.toNat + (k.z4 >>> (n / 2)).toNat + (bit (n := n) k.c1 <<< (n / 2)).toNat + (bit (n := n) k.c2).toNat

namespace Machine

/-- MULU.w: unsigned × unsigned, full width (R52). -/
def execMulu (w : Width) (x y : Word) (s : State) : Host.Outcome State Fault Refusal :=
  .next (s.completeFull w (fullProduct .uu (portValue w x) (portValue w y)))

end Machine
end Sys2Proof
end

