-- ==== Sys2Proof/Machine/Signed.lean ====
section
/-! DEFINITION. The sign-correction unit as a datapath (R54 to R60) and MULS (R61). -/

namespace Sys2Proof

/-- The magnitude vu of v: unsigned subtraction from zero when the sign bit is set, which includes the
+1 (R55, C1). -/
def magnitude {n : Nat} (v : BitVec n) : BitVec n := if signBit v then 0#n - v else v

/-- The signals of the deferred negation of (hi1, lo1) (R20, R57, R58). -/
structure NegationSignals (n : Nat) where
  lo2 : BitVec n
  hib : Bool
  hi2 : BitVec n
deriving DecidableEq, Repr

/-- Decrement of the low limb with its borrow into the high limb (R57, R58). -/
def negationSignals {n : Nat} (p : Wide n) : NegationSignals n :=
  let lo2 := p.lo - 1#n
  let hib := borrowOut lo2 p.lo
  { lo2 := lo2, hib := hib, hi2 := p.hi - bit hib }

/-- NEG2(w, hi1, lo1): subtract one, then complement both limbs (R57, R58). -/
def negateWide {n : Nat} (p : Wide n) : Wide n :=
  ⟨~~~(negationSignals p).hi2, ~~~(negationSignals p).lo2⟩

/-- The correction of a kernel result by the result sign (R56). -/
def correctSign {n : Nat} (rs : Bool) (p : Wide n) : Wide n := if rs then negateWide p else p

/-- SIGNED(w, X, Y) (R60). -/
def signedPath {n : Nat} (x y : BitVec n) : Wide n :=
  correctSign (xor (signBit x) (signBit y)) (kernel (magnitude x) (magnitude y))

namespace Machine

/-- MULS.w: signed × signed, full width (R61). -/
def execMuls (w : Width) (x y : Word) (s : State) : Host.Outcome State Fault Refusal :=
  .next (s.completeFull w (fullProduct .ss (portValue w x) (portValue w y)))

end Machine
end Sys2Proof
end

