-- ==== Sys2Proof/Machine/SignedUnsigned.lean ====
section
/-! DEFINITION. The signed × unsigned path as a datapath (R63) and MULSU (R65). -/

namespace Sys2Proof

/-- SIGNED_UNSIGNED(w, X, Y): only X has a sign and a magnitude; Y is used as given (R63). -/
def signedUnsignedPath {n : Nat} (x y : BitVec n) : Wide n :=
  correctSign (signBit x) (kernel (magnitude x) y)

namespace Machine

/-- MULSU.w: signed × unsigned, full width; X is the signed operand (R64, R65). -/
def execMulsu (w : Width) (x y : Word) (s : State) : Host.Outcome State Fault Refusal :=
  .next (s.completeFull w (fullProduct .su (portValue w x) (portValue w y)))

end Machine
end Sys2Proof
end

