-- ==== Sys2Proof/Machine/HighWord.lean ====
section
/-! DEFINITION. The high-word datapaths (R69, R71 to R73), the relations between high words (R74), the
tests whether a product fits in w bits (R75), and MULHU, MULHS, MULHSU. -/

namespace Sys2Proof

/-- The high limb after the sign correction; the borrow still comes from the low limb, which is then
discarded (R69, R72, R73). -/
def correctHigh {n : Nat} (rs : Bool) (p : Wide n) : BitVec n :=
  if rs then ~~~(p.hi - bit (borrowByZero p.lo)) else p.hi

/-- The MULHU datapath: no negation, so no borrow (R69, R71). -/
def unsignedHighPath {n : Nat} (x y : BitVec n) : BitVec n := (kernel x y).hi

/-- The MULHS datapath (R72). -/
def signedHighPath {n : Nat} (x y : BitVec n) : BitVec n :=
  correctHigh (xor (signBit x) (signBit y)) (kernel (magnitude x) (magnitude y))

/-- The MULHSU datapath (R73). -/
def signedUnsignedHighPath {n : Nat} (x y : BitVec n) : BitVec n :=
  correctHigh (signBit x) (kernel (magnitude x) y)

/-- v if the bit is set, else zero: the correction terms of R74. -/
def gate {n : Nat} (b : Bool) (v : BitVec n) : BitVec n := if b then v else 0#n

/-- The high limb is the sign extension of the low limb, so {hi, lo} = sext_2w(lo) (R75). -/
def Wide.isSignExtension {n : Nat} (p : Wide n) : Bool :=
  decide (p.hi = if signBit p.lo then BitVec.allOnes n else 0#n)

namespace Machine

/-- MULHU.w: unsigned × unsigned, high word only (R71). -/
def execMulhu (w : Width) (x y : Word) (s : State) : Host.Outcome State Fault Refusal :=
  .next (s.completeHigh w (highProduct .uu (portValue w x) (portValue w y)))

/-- MULHS.w: signed × signed, high word only (R72). -/
def execMulhs (w : Width) (x y : Word) (s : State) : Host.Outcome State Fault Refusal :=
  .next (s.completeHigh w (highProduct .ss (portValue w x) (portValue w y)))

/-- MULHSU.w: signed × unsigned, high word only; X is the signed operand (R73). -/
def execMulhsu (w : Width) (x y : Word) (s : State) : Host.Outcome State Fault Refusal :=
  .next (s.completeHigh w (highProduct .su (portValue w x) (portValue w y)))

end Machine
end Sys2Proof
end

