-- ==== Sys2Proof/Machine/Dispatch.lean ====
section
/-! DEFINITION. exec: one arm per operation. -/

namespace Sys2Proof.Machine

/-- What an issued operation does (R37). -/
def exec (i : Instr) (s : State) : Host.Outcome State Fault Refusal :=
  match i with
  | .mulu w x y => Sys2Proof.Machine.execMulu w x y s
  | .muls w x y => Sys2Proof.Machine.execMuls w x y s
  | .mulsu w x y => Sys2Proof.Machine.execMulsu w x y s
  | .mulhu w x y => Sys2Proof.Machine.execMulhu w x y s
  | .mulhs w x y => Sys2Proof.Machine.execMulhs w x y s
  | .mulhsu w x y => Sys2Proof.Machine.execMulhsu w x y s

end Sys2Proof.Machine
end

