-- ==== Sys2Proof/Machine/Consumer.lean ====
section
/-! DEFINITION. What one request of the consumer does to the block: an issued operation (R34, R40), a
read of RES (R14, R26), a reset (R88). -/

namespace Sys2Proof.Machine

/-- An issued transaction: the operation it decodes to is performed; one that is no operation is
refused and writes nothing (R40, R78). -/
def performIssue (t : Transaction) (s : State) : Host.Outcome State Fault Refusal :=
  match decode t with
  | .ok i => exec i s
  | .error e => .refused (refusalOf e)

/-- One request, performed as one indivisible step (R30). -/
def perform (e : Event) (s : State) : Host.Outcome State Fault Refusal :=
  match e with
  | .issue t => performIssue t s
  | .readWidth => s.logRead .width s.res.readWidth
  | .readHi w => s.logRead (.hi w) (s.res.readHi w)
  | .readLo w => s.logRead (.lo w) (s.res.readLo w)
  | .readView => s.logRead .view (s.res.readView Config.byteOrder)
  | .reset => .next s.resetBlock

/-- The transaction of an opcode-table word, placed so that it is the next request performed. -/
def issueNext (s : State) (t : Transaction) : State := { s with pending := .issue t :: s.pending }

end Sys2Proof.Machine
end

