-- ==== Sys2Proof/Machine/Step.lean ====
section
/-! DEFINITION. One step of the machine: the oldest pending request is performed (R31). -/

namespace Sys2Proof.Machine

/-- One step. With no request pending the block is idle and keeps RES (R87, R94, log 7). -/
def step (s : State) : Host.Outcome State Fault Refusal :=
  match s.pending with
  | [] => .next s
  | e :: rest => perform e { s with pending := rest }

/-- The state in which the next request is an opcode-table word, issued with operands of zero (log 5). -/
def State.withFetchWord (s : State) (nbits w : Nat) : State := issueNext s (tableTransaction nbits w)

end Sys2Proof.Machine
end

