-- ==== Sys2Proof/Machine/Assembler.lean ====
section
/-! DEFINITION. The assembler syntax `<mnemonic>.<w> X, Y` and its literals (R42, R43). -/

namespace Sys2Proof

/-- The range of literals the assembler accepts at width w: [−2^(w−1), 2^w − 1] (R42). -/
def literalInRange (w : Width) (n : Int) : Bool :=
  decide (-(2 ^ (w.bits - 1) : Int) ≤ n) && decide (n ≤ 2 ^ w.bits - 1)

/-- The operand a literal stands for, bits_w(n), or none where the assembler rejects it (R42). -/
def assembleLiteral (w : Width) (n : Int) : Option Word :=
  if literalInRange w n then some (w.word (BitVec.ofInt w.bits n)) else none

/-- The value of a decimal digit. -/
def decimalDigit (c : Char) : Option Nat :=
  if 48 ≤ c.toNat ∧ c.toNat ≤ 57 then some (c.toNat - 48) else none

/-- The value of a hexadecimal digit, in either case (log 15). -/
def hexDigit (c : Char) : Option Nat :=
  if 48 ≤ c.toNat ∧ c.toNat ≤ 57 then some (c.toNat - 48)
  else if 65 ≤ c.toNat ∧ c.toNat ≤ 70 then some (c.toNat - 55)
  else if 97 ≤ c.toNat ∧ c.toNat ≤ 102 then some (c.toNat - 87)
  else none

/-- The value of a digit sequence continuing from acc; none at a character that is no digit. -/
def digitsFrom (base : Nat) (digit : Char → Option Nat) : Nat → List Char → Option Nat
  | acc, [] => some acc
  | acc, c :: rest =>
    match digit c with
    | none => none
    | some d => digitsFrom base digit (acc * base + d) rest

/-- The value of a digit sequence of at least one digit. -/
def digits (base : Nat) (digit : Char → Option Nat) : List Char → Option Nat
  | [] => none
  | c :: rest => digitsFrom base digit 0 (c :: rest)

/-- A literal: hexadecimal with a 0x prefix, or decimal with a leading minus sign for a negative one
(R42, which gives no plus sign, no 0X prefix and no minus sign before 0x). DESIGN CHOICE (log 15): a minus
sign before zero (-0, -00) is taken and stands for 0, and leading zeros are taken. -/
def parseLiteral : List Char → Option Int
  | '0' :: 'x' :: rest => (digits 16 hexDigit rest).map fun n => (n : Int)
  | '-' :: rest => (digits 10 decimalDigit rest).map fun n => -(n : Int)
  | text => (digits 10 decimalDigit text).map fun n => (n : Int)

/-- The text before the first c and the text after it; none if there is no c. -/
def cutAt (c : Char) : List Char → Option (List Char × List Char)
  | [] => none
  | d :: rest => if d = c then some ([], rest) else (cutAt c rest).map fun p => (d :: p.1, p.2)

/-- Drops leading spaces, none, one or many (DESIGN CHOICE, log 15). -/
def dropSpaces : List Char → List Char
  | ' ' :: rest => dropSpaces rest
  | text => text

/-- The operation of a mnemonic, case-insensitive (R42). -/
def operationOfName (name : List Char) : Option (Width → Word → Word → Instr) :=
  match name.map Char.toLower with
  | ['m', 'u', 'l', 'u'] => some .mulu
  | ['m', 'u', 'l', 's'] => some .muls
  | ['m', 'u', 'l', 's', 'u'] => some .mulsu
  | ['m', 'u', 'l', 'h', 'u'] => some .mulhu
  | ['m', 'u', 'l', 'h', 's'] => some .mulhs
  | ['m', 'u', 'l', 'h', 's', 'u'] => some .mulhsu
  | _ => none

/-- The width of a width suffix (R42). -/
def widthOfName : List Char → Option Width
  | ['8'] => some .w8
  | ['1', '6'] => some .w16
  | ['3', '2'] => some .w32
  | ['6', '4'] => some .w64
  | _ => none

/-- The operand a literal's text stands for at width w (R42). -/
def assembleOperand (w : Width) (text : List Char) : Option Word :=
  match parseLiteral text with
  | none => none
  | some n => assembleLiteral w n

/-- The operation a line `<mnemonic>.<w> X, Y` stands for; none where the assembler rejects it (R42).
DESIGN CHOICE (log 15): one or more spaces stand before X, any number (none too) between the comma and Y,
and no space stands anywhere else, neither before the mnemonic nor before the comma nor after Y. -/
def assemble (line : List Char) : Option Instr := do
  let (name, afterDot) ← cutAt '.' line
  let (width, afterWidth) ← cutAt ' ' afterDot
  let (xText, yText) ← cutAt ',' (dropSpaces afterWidth)
  let operation ← operationOfName name
  let w ← widthOfName width
  let x ← assembleOperand w xText
  let y ← assembleOperand w (dropSpaces yText)
  return operation w x y

end Sys2Proof
end

