-- ==== Sys2Proof/Machine/Blocks.lean ====
section
/-! DEFINITION. Any number of blocks side by side: each has its own state and they share nothing (R32,
R85). -/

namespace Sys2Proof.Machine

/-- Block k of a row of blocks takes one step; no other block changes (R32, R85). DESIGN CHOICE (log 19):
where that step faults or is refused, the whole row stops with it, so no other block goes further in that
run; the spec says what a stop does to its own block only (R78, R94). A step of a block that is not there
does nothing (log 16). -/
def stepBlock (k : Nat) (blocks : List State) : Host.Outcome (List State) Fault Refusal :=
  match blocks[k]? with
  | none => .next blocks
  | some s =>
    match step s with
    | .next t => .next (blocks.set k t)
    | .fault f => .fault f
    | .refused r => .refused r

end Sys2Proof.Machine
end

