-- ==== Sys2Proof/Safety.lean ====
section
/-! DEFINITION. What claims mean by a good state and by a request that software may make. -/

namespace Sys2Proof.Machine

/-- RES is in the domain of R24: no value at all, or a width w with hi a w-bit value and lo a w-bit
value or ⊥. -/
def Res.inDomain (r : Res) : Bool :=
  match r.w, r.hi, r.lo with
  | none, none, none => true
  | some w, some hi, none => w.fits hi
  | some w, some hi, some lo => w.fits hi && w.fits lo
  | _, _, _ => false

/-- RES as an operation that returned v leaves it (R12, R13). -/
def Returned.leaves : Returned → Res
  | .full w hi lo => ⟨some w, some hi, some lo⟩
  | .high w hi => ⟨some w, some hi, none⟩

/-- RES holds the most recent product the block returned, or no value since reset (R11, R22). -/
def State.holdsLastProduct (s : State) : Bool :=
  decide (s.res = Res.empty) || decide (s.returned.getLast?.map Returned.leaves = some s.res)

/-- The invariant of the block's state (R11, R24). -/
def State.Inv (s : State) : Prop := s.res.inDomain = true ∧ s.holdsLastProduct = true

/-- A transaction the consumer may issue: a defined command word and operands of its width (R40). -/
def transactionAllowed (t : Transaction) : Bool :=
  match decode t with
  | .ok _ => true
  | .error _ => false

/-- A request software may make while RES is r: no reserved command, and no read of a cell that holds
no value or of another width (R14, R29, R40, R89). -/
def Event.allowed (r : Res) : Event → Bool
  | .issue t => transactionAllowed t
  | .readWidth => r.w.isSome
  | .readHi w => r.hi.isSome && decide (r.w = some w)
  | .readLo w => r.lo.isSome && decide (r.w = some w)
  | .readView => r.w.isSome && r.hi.isSome && r.lo.isSome
  | .reset => true

/-- The outcome is a next state. -/
def IsNext (o : Host.Outcome State Fault Refusal) : Prop := ∃ t, o = .next t

end Sys2Proof.Machine
end

