-- ==== Sys2Proof/Certificates/Slice0/Obligations.lean ====
section
/-! DEFINITION. The statements for the provers. An operand "of width w" is w.word X for a w-bit X: every
well-formed operation has its operands of that form. -/

namespace Sys2Proof.Spec

open Sys2Proof.Machine

/-- The command byte of an operation at each width, as the spec's table lists it (R37). -/
def atWidth (w : Width) (c8 c16 c32 c64 : BitVec 8) : BitVec 8 :=
  match w with
  | .w8 => c8
  | .w16 => c16
  | .w32 => c32
  | .w64 => c64

/-- s after a full variant at width w with product p: RES.w, RES.hi, RES.lo, and HI and LO returned;
nothing else changes (R12). -/
def afterFull (s : State) (w : Width) (p : Wide w.bits) : State :=
  { s with
    res := ⟨some w, some (w.word p.hi), some (w.word p.lo)⟩
    returned := s.returned ++ [.full w (w.word p.hi) (w.word p.lo)] }

/-- s after a high variant at width w with high word hi: RES.lo holds ⊥, and HI is returned; nothing
else changes (R13). -/
def afterHigh (s : State) (w : Width) (hi : BitVec w.bits) : State :=
  { s with
    res := ⟨some w, some (w.word hi), none⟩
    returned := s.returned ++ [.high w (w.word hi)] }

/-- In every state, the operation completes with the limbs hi and lo. -/
def Gives (i : Instr) (w : Width) (hi lo : BitVec w.bits) : Prop :=
  ∀ s, exec i s = .next (afterFull s w ⟨hi, lo⟩)

/-- In every state, the operation completes with the high word hi. -/
def GivesHigh (i : Instr) (w : Width) (hi : BitVec w.bits) : Prop :=
  ∀ s, exec i s = .next (afterHigh s w hi)

/-- The most negative value bits_w(−2^(w−1)). -/
def minNeg (w : Width) : BitVec w.bits := BitVec.ofNat w.bits (2 ^ (w.bits - 1))

/-- The most positive value 2^(w−1) − 1. -/
def maxPos (w : Width) : BitVec w.bits := BitVec.ofNat w.bits (2 ^ (w.bits - 1) - 1)

/-- All ones: the largest unsigned value, and −1. -/
def ones (w : Width) : BitVec w.bits := BitVec.allOnes w.bits

/-- All ones if the bit is set, else zero. -/
def fill (w : Width) (b : Bool) : BitVec w.bits := if b then BitVec.allOnes w.bits else 0

/-- m = 2^(w−1). -/
def half (w : Width) : Int := 2 ^ (w.bits - 1)

/-- The mnemonic of an operation, in lower case (R42). -/
def mnemonicText : Instr → List Char
  | .mulu _ _ _ => ['m', 'u', 'l', 'u']
  | .muls _ _ _ => ['m', 'u', 'l', 's']
  | .mulsu _ _ _ => ['m', 'u', 'l', 's', 'u']
  | .mulhu _ _ _ => ['m', 'u', 'l', 'h', 'u']
  | .mulhs _ _ _ => ['m', 'u', 'l', 'h', 's']
  | .mulhsu _ _ _ => ['m', 'u', 'l', 'h', 's', 'u']

/-- The width suffix (R42). -/
def widthText : Width → List Char
  | .w8 => ['8']
  | .w16 => ['1', '6']
  | .w32 => ['3', '2']
  | .w64 => ['6', '4']

/-- text spells the literal n: decimal with a leading minus sign if n is negative, or, for a non-negative
n, hexadecimal with a 0x prefix (R42). That hexadecimal digits may be of either case or mixed, and that any
number of zeros may lead them, are the model's choices (log 15), not R42's. -/
def Spells (text : List Char) (n : Int) : Prop :=
  (0 ≤ n ∧ text = Nat.toDigits 10 n.natAbs) ∨
  (n < 0 ∧ text = '-' :: Nat.toDigits 10 n.natAbs) ∨
  (0 ≤ n ∧ ∃ (zeros : Nat) (hex : List Char), text = '0' :: 'x' :: hex ∧
    hex.map Char.toLower = List.replicate zeros '0' ++ Nat.toDigits 16 n.natAbs)

/-- The range of literals at width w (R42). -/
def InRange (w : Width) (n : Int) : Prop := -(2 ^ (w.bits - 1)) ≤ n ∧ n ≤ 2 ^ w.bits - 1

/-- The requests that issue operations in order. -/
def issues (is : List Instr) : List Event := is.map fun i => .issue (encode i)

/-- The values returned to consumer c, when the tags say which consumer each returned value is for. -/
def returnedTo (c : Nat) (tags : List Nat) (returned : List Returned) : List (Nat × Returned) :=
  (tags.zip returned).filter fun p => p.1 == c

end Sys2Proof.Spec

open Sys2Proof Sys2Proof.Machine Sys2Proof.Spec

/-! ### Encoding -/

/-- Decoding the encoding of a well-formed operation gives it back, operands and all. -/
def Obligations.EncodedInstructionDecodesToItself : Prop :=
  ∀ i : Instr, i.wellFormed = true → decode (encode i) = .ok i

/-- A transaction that decodes has one encoding: its own bits. -/
def Obligations.DecodedTransactionIsItsEncoding : Prop :=
  ∀ (t : Transaction) (i : Instr), decode t = .ok i → encode i = t ∧ i.wellFormed = true

/-- R36, R37: the 24 defined command words, written out, and no others. -/
def Obligations.CommandMapOfTheSpec : Prop :=
  (∀ (w : Width) (X Y : BitVec w.bits),
    decode ⟨atWidth w 0x00#8 0x08#8 0x10#8 0x18#8, w.word X, w.word Y⟩ = .ok (.mulu w (w.word X) (w.word Y)) ∧
    decode ⟨atWidth w 0x01#8 0x09#8 0x11#8 0x19#8, w.word X, w.word Y⟩ = .ok (.muls w (w.word X) (w.word Y)) ∧
    decode ⟨atWidth w 0x02#8 0x0A#8 0x12#8 0x1A#8, w.word X, w.word Y⟩ = .ok (.mulsu w (w.word X) (w.word Y)) ∧
    decode ⟨atWidth w 0x04#8 0x0C#8 0x14#8 0x1C#8, w.word X, w.word Y⟩ = .ok (.mulhu w (w.word X) (w.word Y)) ∧
    decode ⟨atWidth w 0x05#8 0x0D#8 0x15#8 0x1D#8, w.word X, w.word Y⟩ = .ok (.mulhs w (w.word X) (w.word Y)) ∧
    decode ⟨atWidth w 0x06#8 0x0E#8 0x16#8 0x1E#8, w.word X, w.word Y⟩ = .ok (.mulhsu w (w.word X) (w.word Y))) ∧
  (∀ (t : Transaction) (i : Instr), decode t = .ok i →
    t.cmd ∈ [0x00#8, 0x01#8, 0x02#8, 0x04#8, 0x05#8, 0x06#8, 0x08#8, 0x09#8, 0x0A#8, 0x0C#8, 0x0D#8, 0x0E#8,
      0x10#8, 0x11#8, 0x12#8, 0x14#8, 0x15#8, 0x16#8, 0x18#8, 0x19#8, 0x1A#8, 0x1C#8, 0x1D#8, 0x1E#8])

/-- R40: of the 32 command words, the eight with SGN = 11 are refused, in every state and with any
operands, and leave no state; each of the others is an operation. -/
def Obligations.ReservedCommandsAreRefused : Prop :=
  ∀ c : BitVec 8, c.toNat < 32 →
    (c ∈ [0x03#8, 0x07#8, 0x0B#8, 0x0F#8, 0x13#8, 0x17#8, 0x1B#8, 0x1F#8] →
      ∀ (x y : Word) (s : State) (rest : List Event), s.pending = .issue ⟨c, x, y⟩ :: rest →
        step s = .refused .reservedCommand) ∧
    (c ∉ [0x03#8, 0x07#8, 0x0B#8, 0x0F#8, 0x13#8, 0x17#8, 0x1B#8, 0x1F#8] →
      ∃ i : Instr, decode ⟨c, 0#64, 0#64⟩ = .ok i)

/-- R39: the document's call interface. The combination (false, true) is reserved; its product is had
from MULSU with the operands swapped. -/
def Obligations.CallInterfaceMapsToCommands : Prop :=
  ∀ (w : Width) (X Y : BitVec w.bits),
    decode (callTransaction false w false false (w.word X) (w.word Y)) = .ok (.mulu w (w.word X) (w.word Y)) ∧
    decode (callTransaction false w true true (w.word X) (w.word Y)) = .ok (.muls w (w.word X) (w.word Y)) ∧
    decode (callTransaction false w true false (w.word X) (w.word Y)) = .ok (.mulsu w (w.word X) (w.word Y)) ∧
    decode (callTransaction true w false false (w.word X) (w.word Y)) = .ok (.mulhu w (w.word X) (w.word Y)) ∧
    decode (callTransaction true w true true (w.word X) (w.word Y)) = .ok (.mulhs w (w.word X) (w.word Y)) ∧
    decode (callTransaction true w true false (w.word X) (w.word Y)) = .ok (.mulhsu w (w.word X) (w.word Y)) ∧
    (∀ (high : Bool) (x y : Word), decode (callTransaction high w false true x y) = .error .reservedCommand) ∧
    (∃ hi lo : BitVec w.bits, Gives (.mulsu w (w.word Y) (w.word X)) w hi lo ∧
      (Wide.mk hi lo).sint = (X.toNat : Int) * Y.toInt)

/-- The model's choices log 2 and log 3: what the ports cannot carry is refused, not cut down. -/
def Obligations.InexpressibleTransactionsAreRefused : Prop :=
  (∀ i : Instr, i.wellFormed = false → decode (encode i) = .error .operandTooWide) ∧
  (∀ t : Transaction, 32 ≤ t.cmd.toNat → decode t = .error .notACommandWord)

/-! ### The step -/

/-- A step runs the decoded instruction: exec of it, on the state without the request. -/
def Obligations.StepRunsTheDecodedInstruction : Prop :=
  ∀ (s : State) (t : Transaction) (i : Instr) (rest : List Event),
    s.pending = .issue t :: rest → decode t = .ok i → step s = exec i { s with pending := rest }

/-- An opcode-table word placed as the next request runs the operation the decoder reads from it. -/
def Obligations.PlacedTableWordRunsItsInstruction : Prop :=
  ∀ (s : State) (nbits w : Nat) (i : Instr),
    decodeTableWord nbits w = some i → step (s.withFetchWord nbits w) = exec i s

/-- With no request the block keeps everything: it never steps on its own (the idle step is the model's
choice, log 7). -/
def Obligations.IdleBlockKeepsItsState : Prop :=
  ∀ s : State, s.pending = [] → step s = .next s

/-- R41, R76: every well-formed operation that is issued completes, for every operand value and in every
state, and writes its result. -/
def Obligations.EveryIssuedOperationCompletes : Prop :=
  ∀ (i : Instr) (s : State) (rest : List Event), i.wellFormed = true →
    s.pending = .issue (encode i) :: rest →
    (i.high = false → ∃ p : Wide i.width.bits, step s = .next (afterFull { s with pending := rest } i.width p)) ∧
    (i.high = true → ∃ hi : BitVec i.width.bits, step s = .next (afterHigh { s with pending := rest } i.width hi))

/-! ### The operations -/

/-- R52: MULU. -/
def Obligations.MuluWritesTheExactProduct : Prop :=
  (∀ (w : Width) (X Y : BitVec w.bits) (s : State),
    decode ⟨atWidth w 0x00#8 0x08#8 0x10#8 0x18#8, w.word X, w.word Y⟩ = .ok (.mulu w (w.word X) (w.word Y)) ∧
    exec (.mulu w (w.word X) (w.word Y)) s = .next (afterFull s w (kernel X Y)) ∧
    (kernel X Y).hi.toNat * 2 ^ w.bits + (kernel X Y).lo.toNat = X.toNat * Y.toNat) ∧
  Gives (.mulu .w8 254#64 254#64) .w8 0xFC#8 0x04#8

/-- R61: MULS. -/
def Obligations.MulsWritesTheExactProduct : Prop :=
  (∀ (w : Width) (X Y : BitVec w.bits) (s : State),
    decode ⟨atWidth w 0x01#8 0x09#8 0x11#8 0x19#8, w.word X, w.word Y⟩ = .ok (.muls w (w.word X) (w.word Y)) ∧
    exec (.muls w (w.word X) (w.word Y)) s = .next (afterFull s w (signedPath X Y)) ∧
    (signedPath X Y).sint = X.toInt * Y.toInt) ∧
  Gives (.muls .w8 0x80#64 0x80#64) .w8 0x40#8 0x00#8

/-- R65: MULSU. -/
def Obligations.MulsuWritesTheExactProduct : Prop :=
  (∀ (w : Width) (X Y : BitVec w.bits) (s : State),
    decode ⟨atWidth w 0x02#8 0x0A#8 0x12#8 0x1A#8, w.word X, w.word Y⟩ = .ok (.mulsu w (w.word X) (w.word Y)) ∧
    exec (.mulsu w (w.word X) (w.word Y)) s = .next (afterFull s w (signedUnsignedPath X Y)) ∧
    (signedUnsignedPath X Y).sint = X.toInt * (Y.toNat : Int)) ∧
  Gives (.mulsu .w8 0x80#64 0xFE#64) .w8 0x81#8 0x00#8

/-- R71: MULHU. -/
def Obligations.MulhuWritesTheHighWord : Prop :=
  (∀ (w : Width) (X Y : BitVec w.bits) (s : State),
    decode ⟨atWidth w 0x04#8 0x0C#8 0x14#8 0x1C#8, w.word X, w.word Y⟩ = .ok (.mulhu w (w.word X) (w.word Y)) ∧
    exec (.mulhu w (w.word X) (w.word Y)) s = .next (afterHigh s w (unsignedHighPath X Y)) ∧
    (unsignedHighPath X Y).toNat = X.toNat * Y.toNat / 2 ^ w.bits ∧
    (unsignedHighPath X Y = 0 ↔ X.toNat * Y.toNat < 2 ^ w.bits) ∧
    (unsignedHighPath X Y).toNat ≤ 2 ^ w.bits - 2 ∧
    (unsignedHighPath (ones w) (ones w)).toNat = 2 ^ w.bits - 2 ∧
    unsignedHighPath X Y = unsignedHighPath Y X) ∧
  GivesHigh (.mulhu .w8 254#64 254#64) .w8 0xFC#8

/-- R72: MULHS. The quotient rounds toward minus infinity. -/
def Obligations.MulhsWritesTheHighWord : Prop :=
  (∀ (w : Width) (X Y : BitVec w.bits) (s : State),
    decode ⟨atWidth w 0x05#8 0x0D#8 0x15#8 0x1D#8, w.word X, w.word Y⟩ = .ok (.mulhs w (w.word X) (w.word Y)) ∧
    exec (.mulhs w (w.word X) (w.word Y)) s = .next (afterHigh s w (signedHighPath X Y)) ∧
    (signedHighPath X Y).toInt = X.toInt * Y.toInt / 2 ^ w.bits ∧
    signedHighPath X Y = signedHighPath Y X ∧
    signedHighPath X 0 = 0 ∧
    signedHighPath (minNeg w) (minNeg w) = BitVec.ofNat w.bits (2 ^ (w.bits - 2)) ∧
    signedHighPath (minNeg w) 1 = ones w ∧
    signedHighPath (minNeg w) (ones w) = 0) ∧
  GivesHigh (.mulhs .w8 0x80#64 0x80#64) .w8 0x40#8

/-- R73: MULHSU. -/
def Obligations.MulhsuWritesTheHighWord : Prop :=
  (∀ (w : Width) (X Y : BitVec w.bits) (s : State),
    decode ⟨atWidth w 0x06#8 0x0E#8 0x16#8 0x1E#8, w.word X, w.word Y⟩ = .ok (.mulhsu w (w.word X) (w.word Y)) ∧
    exec (.mulhsu w (w.word X) (w.word Y)) s = .next (afterHigh s w (signedUnsignedHighPath X Y)) ∧
    (signedUnsignedHighPath X Y).toInt = X.toInt * (Y.toNat : Int) / 2 ^ w.bits ∧
    signedUnsignedHighPath X 0 = 0 ∧
    signedUnsignedHighPath (minNeg w) (ones w) = minNeg w) ∧
  (∀ w : Width, ∃ X Y : BitVec w.bits, signedUnsignedHighPath X Y ≠ signedUnsignedHighPath Y X) ∧
  GivesHigh (.mulhsu .w8 0x80#64 0xFE#64) .w8 0x81#8

/-- R68: the high variant's word is the hi limb of the full variant, and bits_w(p >> w) of the exact
product p. -/
def Obligations.HighVariantsAgreeWithFullVariants : Prop :=
  ∀ (w : Width) (X Y : BitVec w.bits),
    (∃ hi lo, Gives (.mulu w (w.word X) (w.word Y)) w hi lo ∧ GivesHigh (.mulhu w (w.word X) (w.word Y)) w hi ∧
      hi = (BitVec.ofInt (w.bits + w.bits) ((X.toNat : Int) * (Y.toNat : Int)) >>> w.bits).setWidth w.bits) ∧
    (∃ hi lo, Gives (.muls w (w.word X) (w.word Y)) w hi lo ∧ GivesHigh (.mulhs w (w.word X) (w.word Y)) w hi ∧
      hi = (BitVec.ofInt (w.bits + w.bits) (X.toInt * Y.toInt) >>> w.bits).setWidth w.bits) ∧
    (∃ hi lo, Gives (.mulsu w (w.word X) (w.word Y)) w hi lo ∧ GivesHigh (.mulhsu w (w.word X) (w.word Y)) w hi ∧
      hi = (BitVec.ofInt (w.bits + w.bits) (X.toInt * (Y.toNat : Int)) >>> w.bits).setWidth w.bits)

/-- The frame of all six operations: RES is replaced whole by the returned value and one value is
returned; no request and no read value changes. The block has nothing else (no register, flag or
memory). -/
def Obligations.OperationsChangeOnlyResAndReturn : Prop :=
  ∀ (i : Instr) (s t : State), exec i s = .next t →
    t.pending = s.pending ∧ t.reads = s.reads ∧
    ∃ v : Returned, t.returned = s.returned ++ [v] ∧ t.res = v.leaves

/-- R92, R93: an operation's result, returned value and all of RES, depends on the operation alone and
not on the state it meets. -/
def Obligations.ResultDependsOnOperationAlone : Prop :=
  ∀ i : Instr, ∃ v : Returned, ∀ s : State,
    exec i s = .next { s with res := v.leaves, returned := s.returned ++ [v] }

/-! ### The datapath -/

/-- R46, R47: the limbs split the operand, and the cross products are exact. -/
def Obligations.LimbsAndCrossProductsAreExact : Prop :=
  ∀ (w : Width) (X Y : BitVec w.bits),
    X.toNat = (kernelSignals X Y).x1.toNat * 2 ^ (w.bits / 2) + (kernelSignals X Y).x0.toNat ∧
    Y.toNat = (kernelSignals X Y).y1.toNat * 2 ^ (w.bits / 2) + (kernelSignals X Y).y0.toNat ∧
    (kernelSignals X Y).z0.toNat = (kernelSignals X Y).x0.toNat * (kernelSignals X Y).y0.toNat ∧
    (kernelSignals X Y).z1.toNat = (kernelSignals X Y).x1.toNat * (kernelSignals X Y).y0.toNat ∧
    (kernelSignals X Y).z2.toNat = (kernelSignals X Y).x0.toNat * (kernelSignals X Y).y1.toNat ∧
    (kernelSignals X Y).z3.toNat = (kernelSignals X Y).x1.toNat * (kernelSignals X Y).y1.toNat

/-- R48, R49: the two carries are the carries out of the two additions, and a comparison detects each. -/
def Obligations.KernelCarriesAreTheAdditionCarries : Prop :=
  ∀ (w : Width) (X Y : BitVec w.bits),
    (kernelSignals X Y).z1.toNat + (kernelSignals X Y).z2.toNat =
      (kernelSignals X Y).z4.toNat + (if (kernelSignals X Y).c1 then 2 ^ w.bits else 0) ∧
    (kernelSignals X Y).c1 = carryByComparison (kernelSignals X Y).z4 (kernelSignals X Y).z1 ∧
    (kernelSignals X Y).z0.toNat + ((kernelSignals X Y).z4 <<< (w.bits / 2)).toNat =
      (kernelSignals X Y).lo.toNat + (if (kernelSignals X Y).c2 then 2 ^ w.bits else 0) ∧
    (kernelSignals X Y).c2 = carryByComparison (kernelSignals X Y).lo (kernelSignals X Y).z0

/-- R51: the kernel is exact, and the addition of the high half never wraps. -/
def Obligations.KernelComputesTheExactProduct : Prop :=
  ∀ (w : Width) (X Y : BitVec w.bits),
    (kernel X Y).hi.toNat * 2 ^ w.bits + (kernel X Y).lo.toNat = X.toNat * Y.toNat ∧
    kernelHighSum X Y < 2 ^ w.bits ∧
    (kernel X Y).hi.toNat = kernelHighSum X Y ∧
    (kernel X Y).hi.toNat ≤ 2 ^ w.bits - 2

/-- R54, R55: the sign bit and the magnitude, the most negative value among them. -/
def Obligations.MagnitudeIsTheAbsoluteValue : Prop :=
  (∀ (w : Width) (V : BitVec w.bits),
    (signBit V = true ↔ V.toInt < 0) ∧
    (magnitude V).toNat = V.toInt.natAbs) ∧
  (∀ w : Width, magnitude (minNeg w) = minNeg w ∧ ((minNeg w).toInt = -half w))

/-- R57, R58, R59: the deferred negation gives the two's-complement negation of the 2w-bit value, the
negation of zero is zero, and the borrow is lo1 = 0. -/
def Obligations.DeferredNegationNegates : Prop :=
  ∀ (w : Width) (p : Wide w.bits),
    (negationSignals p).lo2 = p.lo - 1 ∧
    (negationSignals p).hib = decide (p.lo.toNat < (p.lo - 1).toNat) ∧
    (negationSignals p).hib = borrowByZero p.lo ∧
    (negationSignals p).hi2 = (if p.lo = 0 then p.hi - 1 else p.hi) ∧
    negateWide p = ⟨~~~(negationSignals p).hi2, ~~~(negationSignals p).lo2⟩ ∧
    (negateWide p).toBits = BitVec.ofInt (w.bits + w.bits) (-(p.uint : Int)) ∧
    negateWide (Wide.mk (0 : BitVec w.bits) 0) = ⟨0, 0⟩

/-- R8: each datapath computes its operation's exact-product contract on every input. -/
def Obligations.DatapathsAgreeWithTheContract : Prop :=
  ∀ (w : Width) (X Y : BitVec w.bits),
    kernel X Y = fullProduct .uu X Y ∧
    signedPath X Y = fullProduct .ss X Y ∧
    signedUnsignedPath X Y = fullProduct .su X Y ∧
    unsignedHighPath X Y = highProduct .uu X Y ∧
    signedHighPath X Y = highProduct .ss X Y ∧
    signedUnsignedHighPath X Y = highProduct .su X Y

/-- R60, R63: the signed and the mixed path, negating the kernel's result on the magnitudes when the
result sign is set, return the exact product as a signed 2w-bit value. -/
def Obligations.SignedDatapathsAreExact : Prop :=
  ∀ (w : Width) (X Y : BitVec w.bits),
    signedPath X Y = (if X.msb = Y.msb then kernel (magnitude X) (magnitude Y)
      else negateWide (kernel (magnitude X) (magnitude Y))) ∧
    signedUnsignedPath X Y = (if X.msb then negateWide (kernel (magnitude X) Y) else kernel (magnitude X) Y) ∧
    (signedPath X Y).sint = X.toInt * Y.toInt ∧
    (signedUnsignedPath X Y).sint = X.toInt * (Y.toNat : Int)

/-! ### Laws of the operations -/

/-- R53. -/
def Obligations.MuluLaws : Prop :=
  ∀ (w : Width) (X Y : BitVec w.bits),
    Gives (.mulu w (w.word X) (w.word 0)) w 0 0 ∧
    Gives (.mulu w (w.word 0) (w.word Y)) w 0 0 ∧
    Gives (.mulu w (w.word X) (w.word 1)) w 0 X ∧
    Gives (.mulu w (w.word (ones w)) (w.word (ones w))) w (BitVec.ofNat w.bits (2 ^ w.bits - 2)) 1 ∧
    (∃ hi lo, Gives (.mulu w (w.word X) (w.word Y)) w hi lo ∧ hi.toNat ≤ 2 ^ w.bits - 2 ∧
      (hi = 0 ↔ X.toNat * Y.toNat < 2 ^ w.bits)) ∧
    (∀ s, exec (.mulu w (w.word X) (w.word Y)) s = exec (.mulu w (w.word Y) (w.word X)) s)

/-- R62. -/
def Obligations.MulsLaws : Prop :=
  (∀ (w : Width) (X Y : BitVec w.bits),
    Gives (.muls w (w.word (minNeg w)) (w.word (minNeg w))) w (BitVec.ofNat w.bits (2 ^ (w.bits - 2))) 0 ∧
    Gives (.muls w (w.word (minNeg w)) (w.word (ones w))) w 0 (minNeg w) ∧
    Gives (.muls w (w.word (minNeg w)) (w.word 1)) w (ones w) (minNeg w) ∧
    (∃ hi lo, Gives (.muls w (w.word (minNeg w)) (w.word (maxPos w))) w hi lo ∧
      (Wide.mk hi lo).sint = -(half w * (half w - 1))) ∧
    Gives (.muls w (w.word X) (w.word 0)) w 0 0 ∧
    Gives (.muls w (w.word (ones w)) (w.word (ones w))) w 0 1 ∧
    Gives (.muls w (w.word (ones w)) (w.word 1)) w (ones w) (ones w) ∧
    (∃ hi lo, Gives (.muls w (w.word X) (w.word Y)) w hi lo ∧
      -(half w * (half w - 1)) ≤ (Wide.mk hi lo).sint ∧ (Wide.mk hi lo).sint ≤ half w * half w ∧
      lo = BitVec.ofNat w.bits (X.toNat * Y.toNat)) ∧
    Gives (.muls w (w.word X) (w.word 1)) w (fill w X.msb) X ∧
    (∃ hi lo, Gives (.muls w (w.word X) (w.word X)) w hi lo ∧ 0 ≤ (Wide.mk hi lo).sint) ∧
    (∀ s, exec (.muls w (w.word X) (w.word Y)) s = exec (.muls w (w.word Y) (w.word X)) s)) ∧
  Gives (.muls .w8 0x80#64 0x7F#64) .w8 0xC0#8 0x80#8 ∧
  (Wide.mk 0x4000#16 0x0000#16).sint = 1073741824

/-- R66. -/
def Obligations.MulsuLaws : Prop :=
  (∀ (w : Width) (X Y : BitVec w.bits),
    (∃ hi lo, Gives (.mulsu w (w.word (minNeg w)) (w.word (ones w))) w hi lo ∧
      (Wide.mk hi lo).sint = -(half w * (2 ^ w.bits - 1))) ∧
    (∃ hi lo, Gives (.mulsu w (w.word (maxPos w)) (w.word (ones w))) w hi lo ∧
      (Wide.mk hi lo).sint = (half w - 1) * (2 ^ w.bits - 1)) ∧
    (∃ hi lo, Gives (.mulsu w (w.word (ones w)) (w.word (ones w))) w hi lo ∧
      (Wide.mk hi lo).sint = -(2 ^ w.bits - 1)) ∧
    Gives (.mulsu w (w.word X) (w.word 0)) w 0 0 ∧
    Gives (.mulsu w (w.word X) (w.word 1)) w (fill w X.msb) X ∧
    (X.msb = false →
      ∀ s, exec (.mulsu w (w.word X) (w.word Y)) s = exec (.mulu w (w.word X) (w.word Y)) s) ∧
    (Y.msb = false →
      ∀ s, exec (.mulsu w (w.word X) (w.word Y)) s = exec (.muls w (w.word X) (w.word Y)) s) ∧
    (∃ hi lo, Gives (.mulsu w (w.word X) (w.word Y)) w hi lo ∧
      -(half w * (2 ^ w.bits - 1)) ≤ (Wide.mk hi lo).sint ∧
      (Wide.mk hi lo).sint ≤ (half w - 1) * (2 ^ w.bits - 1))) ∧
  Gives (.mulsu .w8 0x80#64 0xFF#64) .w8 0x80#8 0x80#8 ∧
  Gives (.mulsu .w8 0x7F#64 0xFF#64) .w8 0x7E#8 0x81#8 ∧
  Gives (.mulsu .w8 0xFF#64 0xFF#64) .w8 0xFF#8 0x01#8

/-- R64: X is the signed operand, and swapping the operands changes the result. -/
def Obligations.MulsuIsAsymmetric : Prop :=
  Gives (.mulsu .w8 0xFF#64 0x01#64) .w8 0xFF#8 0xFF#8 ∧
  Gives (.mulsu .w8 0x01#64 0xFF#64) .w8 0x00#8 0xFF#8 ∧
  (∀ (w : Width) (A B : BitVec w.bits), ∃ hi lo, Gives (.mulsu w (w.word B) (w.word A)) w hi lo ∧
    (Wide.mk hi lo).sint = (A.toNat : Int) * B.toInt)

/-- R67: one low limb for all three full variants. -/
def Obligations.LowHalfIgnoresSignedness : Prop :=
  ∀ (w : Width) (X Y : BitVec w.bits),
    (∃ hi, Gives (.mulu w (w.word X) (w.word Y)) w hi (BitVec.ofNat w.bits (X.toNat * Y.toNat))) ∧
    (∃ hi, Gives (.muls w (w.word X) (w.word Y)) w hi (BitVec.ofNat w.bits (X.toNat * Y.toNat))) ∧
    (∃ hi, Gives (.mulsu w (w.word X) (w.word Y)) w hi (BitVec.ofNat w.bits (X.toNat * Y.toNat)))

/-- R74: the signed high words from the unsigned one. -/
def Obligations.HighWordRelations : Prop :=
  ∀ (w : Width) (X Y : BitVec w.bits), ∃ u : BitVec w.bits,
    GivesHigh (.mulhu w (w.word X) (w.word Y)) w u ∧
    GivesHigh (.mulhsu w (w.word X) (w.word Y)) w (u - gate X.msb Y) ∧
    GivesHigh (.mulhs w (w.word X) (w.word Y)) w (u - gate X.msb Y - gate Y.msb X)

/-- R75: when the exact product fits in w bits. -/
def Obligations.HighWordShowsWhetherProductFits : Prop :=
  ∀ (w : Width) (X Y : BitVec w.bits),
    (∃ u, GivesHigh (.mulhu w (w.word X) (w.word Y)) w u ∧ (X.toNat * Y.toNat < 2 ^ w.bits ↔ u = 0)) ∧
    (∃ hi lo, Gives (.muls w (w.word X) (w.word Y)) w hi lo ∧
      ((-half w ≤ X.toInt * Y.toInt ∧ X.toInt * Y.toInt < half w) ↔ hi = fill w lo.msb) ∧
      (hi = fill w lo.msb ↔ hi ++ lo = lo.signExtend (w.bits + w.bits))) ∧
    (∃ hi lo, Gives (.mulsu w (w.word X) (w.word Y)) w hi lo ∧
      ((-half w ≤ X.toInt * (Y.toNat : Int) ∧ X.toInt * (Y.toNat : Int) < half w) ↔ hi = fill w lo.msb))

/-! ### RES, its reads and its byte view -/

/-- R15: the readings of RES, and equality of wide values limb by limb. -/
def Obligations.ReadingsOfResStandForItsValue : Prop :=
  ∀ (w : Width) (hi lo : BitVec w.bits),
    (Res.mk (some w) (some (w.word hi)) (some (w.word lo))).uint = some (hi.toNat * 2 ^ w.bits + lo.toNat) ∧
    (Res.mk (some w) (some (w.word hi)) (some (w.word lo))).sint = some (hi ++ lo).toInt ∧
    (∀ (v : Width) (hi' lo' : BitVec v.bits),
      Res.mk (some w) (some (w.word hi)) (some (w.word lo)) = Res.mk (some v) (some (v.word hi')) (some (v.word lo')) ↔
      w = v ∧ w.word hi = v.word hi' ∧ w.word lo = v.word lo')

/-- R14: a read of a cell that holds no value faults, a read at another width is refused, neither gives
a value; any other read gives the cell's value and changes nothing of RES. Which of fault and refusal a
read gives that meets both grounds is not said here (log 9). -/
def Obligations.ReadsOfResCells : Prop :=
  ∀ (s : State) (rest : List Event) (w : Width),
    (s.pending = .readWidth :: rest →
      (s.res.w = none → step s = .fault .resWidthEmpty) ∧
      (∀ v, s.res.w = some v →
        step s = .next { s with pending := rest, reads := s.reads ++ [.width v] })) ∧
    (s.pending = .readHi w :: rest →
      (s.res.hi = none → s.res.w = none ∨ s.res.w = some w → step s = .fault .resHiEmpty) ∧
      (∀ h, s.res.hi = some h → s.res.w ≠ some w → step s = .refused .widthMismatch) ∧
      (s.res.hi = none → s.res.w ≠ some w → ∀ t, step s ≠ .next t) ∧
      (∀ h, s.res.hi = some h → s.res.w = some w →
        step s = .next { s with pending := rest, reads := s.reads ++ [.hi w h] })) ∧
    (s.pending = .readLo w :: rest →
      (s.res.lo = none → s.res.w = none ∨ s.res.w = some w → step s = .fault .resLoEmpty) ∧
      (∀ l, s.res.lo = some l → s.res.w ≠ some w → step s = .refused .widthMismatch) ∧
      (s.res.lo = none → s.res.w ≠ some w → ∀ t, step s ≠ .next t) ∧
      (∀ l, s.res.lo = some l → s.res.w = some w →
        step s = .next { s with pending := rest, reads := s.reads ++ [.lo w l] }))

/-- R70: after a high variant RES.lo holds no value, and reading it faults. -/
def Obligations.HighVariantsLeaveNoLowHalf : Prop :=
  ∀ (i : Instr) (s : State) (rest : List Event), i.wellFormed = true → i.high = true →
    s.pending = .issue (encode i) :: .readLo i.width :: rest →
    (∃ hi : BitVec i.width.bits,
      step s = .next (afterHigh { s with pending := .readLo i.width :: rest } i.width hi)) ∧
    core.run 2 s = .fault .resLoEmpty

/-- The next read sees the result: an operation returns v, and whatever read of RES follows it gives what
v left there: its width, its HI limb, and for a full variant its LO limb and the byte view of both. After a
high variant the reads of LO and of the view stop, since there is no low limb. -/
def Obligations.NextReadSeesTheResult : Prop :=
  ∀ i : Instr, i.wellFormed = true → ∃ v : Returned, v.leaves.w = some i.width ∧
    ∀ (s : State) (rest : List Event),
      (s.pending = .issue (encode i) :: .readWidth :: rest →
        core.run 2 s = .next { s with
          pending := rest, res := v.leaves, returned := s.returned ++ [v]
          reads := s.reads ++ [.width i.width] }) ∧
      (∃ h, v.leaves.hi = some h ∧ (s.pending = .issue (encode i) :: .readHi i.width :: rest →
        core.run 2 s = .next { s with
          pending := rest, res := v.leaves, returned := s.returned ++ [v]
          reads := s.reads ++ [.hi i.width h] })) ∧
      (i.high = false → ∃ p : Wide i.width.bits,
        v.leaves = ⟨some i.width, some (i.width.word p.hi), some (i.width.word p.lo)⟩ ∧
        (s.pending = .issue (encode i) :: .readLo i.width :: rest →
          core.run 2 s = .next { s with
            pending := rest, res := v.leaves, returned := s.returned ++ [v]
            reads := s.reads ++ [.lo i.width (i.width.word p.lo)] }) ∧
        (s.pending = .issue (encode i) :: .readView :: rest →
          core.run 2 s = .next { s with
            pending := rest, res := v.leaves, returned := s.returned ++ [v]
            reads := s.reads ++ [.view (p.view Config.byteOrder)] })) ∧
      (i.high = true →
        (s.pending = .issue (encode i) :: .readLo i.width :: rest → core.run 2 s = .fault .resLoEmpty) ∧
        (s.pending = .issue (encode i) :: .readView :: rest → core.run 2 s = .refused .noByteView))

/-- R27: the byte view under little. -/
def Obligations.ByteViewLittle : Prop :=
  (∀ (w : Width) (hi lo : BitVec w.bits),
    (Wide.view .little ⟨hi, lo⟩).length = 2 * w.bits / 8 ∧
    (∀ i, i < 2 * w.bits / 8 → (Wide.view .little ⟨hi, lo⟩)[i]? =
      some (BitVec.ofNat 8 ((hi.toNat * 2 ^ w.bits + lo.toNat) / 2 ^ (8 * i)))) ∧
    Wide.view .little ⟨hi, lo⟩ = (List.range (w.bits / 8)).map (fun i => BitVec.ofNat 8 (lo.toNat / 2 ^ (8 * i))) ++
      (List.range (w.bits / 8)).map (fun i => BitVec.ofNat 8 (hi.toNat / 2 ^ (8 * i)))) ∧
  (∀ s, ∃ t, exec (.mulu .w16 0x1234#64 0x5678#64) s = .next t ∧
    t.res.readView .little = .next [0x60#8, 0x00#8, 0x26#8, 0x06#8])

/-- R28: the byte view under big. -/
def Obligations.ByteViewBig : Prop :=
  (∀ (w : Width) (hi lo : BitVec w.bits),
    (Wide.view .big ⟨hi, lo⟩).length = 2 * w.bits / 8 ∧
    (∀ i, i < 2 * w.bits / 8 → (Wide.view .big ⟨hi, lo⟩)[i]? =
      some (BitVec.ofNat 8 ((hi.toNat * 2 ^ w.bits + lo.toNat) / 2 ^ (8 * (2 * w.bits / 8 - 1 - i))))) ∧
    Wide.view .big ⟨hi, lo⟩ =
      (List.range (w.bits / 8)).map (fun i => BitVec.ofNat 8 (hi.toNat / 2 ^ (8 * (w.bits / 8 - 1 - i)))) ++
      (List.range (w.bits / 8)).map (fun i => BitVec.ofNat 8 (lo.toNat / 2 ^ (8 * (w.bits / 8 - 1 - i))))) ∧
  (∀ s, ∃ t, exec (.mulu .w16 0x1234#64 0x5678#64) s = .next t ∧
    t.res.readView .big = .next [0x06#8, 0x26#8, 0x00#8, 0x60#8])

/-- R29: reading the view back, whole and by w-bit words, in either byte order; the view of a
high-variant result is refused. -/
def Obligations.ByteViewReadsBack : Prop :=
  (∀ (w : Width) (hi lo : BitVec w.bits),
    (∀ o, readBack o (Wide.view o ⟨hi, lo⟩) = hi.toNat * 2 ^ w.bits + lo.toNat) ∧
    readBack .little ((Wide.view .little ⟨hi, lo⟩).take (w.bits / 8)) = lo.toNat ∧
    readBack .little ((Wide.view .little ⟨hi, lo⟩).drop (w.bits / 8)) = hi.toNat ∧
    readBack .big ((Wide.view .big ⟨hi, lo⟩).take (w.bits / 8)) = hi.toNat ∧
    readBack .big ((Wide.view .big ⟨hi, lo⟩).drop (w.bits / 8)) = lo.toNat) ∧
  (∀ (w : Width) (X Y : BitVec w.bits) (s : State) (o : ByteOrder) (i : Instr),
    i ∈ [.mulhu w (w.word X) (w.word Y), .mulhs w (w.word X) (w.word Y), .mulhsu w (w.word X) (w.word Y)] →
    ∃ t, exec i s = .next t ∧ t.res.readView o = .refused .noByteView)

/-- A step that reads the byte view gives the view of RES in the machine's byte order, whatever that is,
and changes nothing of RES. -/
def Obligations.ByteViewReadGivesTheView : Prop :=
  ∀ (s : State) (rest : List Event) (w : Width) (hi lo : BitVec w.bits), s.pending = .readView :: rest →
    (s.res = ⟨some w, some (w.word hi), some (w.word lo)⟩ →
      step s = .next { s with pending := rest, reads := s.reads ++ [.view (Wide.view Config.byteOrder ⟨hi, lo⟩)] }) ∧
    (s.res = ⟨some w, some (w.word hi), none⟩ → step s = .refused .noByteView)

/-! ### Reset and invariants -/

/-- After reset RES holds no value and every read of a cell faults (R22); a reset request leaves the same
RES from any state (R88). That it keeps the pending requests and the values returned and read is the
model's choice (log 14). -/
def Obligations.ResetLeavesNoValueInRes : Prop :=
  State.reset.res = ⟨none, none, none⟩ ∧
  (∀ w : Width, step { State.reset with pending := [.readWidth] } = .fault .resWidthEmpty ∧
    step { State.reset with pending := [.readHi w] } = .fault .resHiEmpty ∧
    step { State.reset with pending := [.readLo w] } = .fault .resLoEmpty) ∧
  (∀ (s : State) (rest : List Event), s.pending = .reset :: rest →
    step s = .next { s with pending := rest, res := ⟨none, none, none⟩ })

/-- The invariant holds at reset. -/
def Obligations.ResetStateMeetsTheInvariant : Prop := State.reset.Inv

/-- R24: every step leaves RES in the spec's domain. -/
def Obligations.EveryStepKeepsResInItsDomain : Prop :=
  ∀ s t : State, s.res.inDomain = true → step s = .next t → t.res.inDomain = true

/-- Every step keeps the invariant: RES in its domain, and holding the most recent product returned or
no value since a reset. -/
def Obligations.EveryStepKeepsTheInvariant : Prop :=
  ∀ s t : State, s.Inv → step s = .next t → t.Inv

/-- R16: only a completed operation writes RES, all three cells at once; apart from it only reset
(R88) changes RES. That a reset keeps the returned values is the model's choice (log 14). -/
def Obligations.OnlyCompletedOperationsWriteRes : Prop :=
  ∀ s t : State, step s = .next t →
    (t.res = s.res ∧ t.returned = s.returned) ∨
    (∃ rest, s.pending = .reset :: rest ∧ t.res = ⟨none, none, none⟩ ∧ t.returned = s.returned) ∨
    (∃ (tr : Transaction) (i : Instr) (v : Returned) (rest : List Event), s.pending = .issue tr :: rest ∧
      decode tr = .ok i ∧ t.res = v.leaves ∧ t.returned = s.returned ++ [v])

/-- Requests are performed in the order they reach the block, one a step, and none is added. -/
def Obligations.RequestsArePerformedInOrder : Prop :=
  ∀ s t : State, step s = .next t → t.pending = s.pending.tail

/-- A request is performed exactly when software may make it: the allowed requests never stop the block,
and every other one does. -/
def Obligations.ExactlyAllowedRequestsComplete : Prop :=
  ∀ (s : State) (e : Event) (rest : List Event), s.pending = e :: rest →
    (e.allowed s.res = true ↔ IsNext (step s))

/-! ### Runs, consumers and several blocks -/

/-- R94: a run of issued operations from any state completes; it returns each operation's own value, in
order, and leaves RES as the last operation does. A run that issues a reserved command is refused and
has no end state. -/
def Obligations.RunReturnsEachResultInOrder : Prop :=
  ∃ result : Instr → Returned,
    (∀ (i : Instr) (s : State),
      exec i s = .next { s with res := (result i).leaves, returned := s.returned ++ [result i] }) ∧
    (∀ (is : List Instr) (s : State) (rest : List Event), (∀ i ∈ is, i.wellFormed = true) →
      s.pending = issues is ++ rest →
      core.run is.length s = .next { s with
        pending := rest
        returned := s.returned ++ is.map result
        res := (is.getLast?.map fun i => (result i).leaves).getD s.res }) ∧
    (∀ (is : List Instr) (s : State) (rest : List Event) (t : Transaction) (k : Nat),
      (∀ i ∈ is, i.wellFormed = true) → decode t = .error .reservedCommand →
      s.pending = issues is ++ .issue t :: rest → is.length < k →
      core.run k s = .refused .reservedCommand)

/-- Several consumers on one block: whatever the order in which their operations reach the block, each
consumer gets the same returned values, in its own order. -/
def Obligations.ConsumersDoNotDisturbEachOther : Prop :=
  ∀ (c : Nat) (a b : List (Nat × Instr)) (s u : State),
    (∀ p ∈ a, p.2.wellFormed = true) → (∀ p ∈ b, p.2.wellFormed = true) →
    (a.filter fun p => p.1 == c) = (b.filter fun p => p.1 == c) →
    s.pending = issues (a.map Prod.snd) → u.pending = issues (b.map Prod.snd) →
    s.returned = [] → u.returned = [] →
    ∃ t v : State, core.run a.length s = .next t ∧ core.run b.length u = .next v ∧
      t.returned.length = a.length ∧ v.returned.length = b.length ∧
      returnedTo c (a.map Prod.fst) t.returned = returnedTo c (b.map Prod.fst) v.returned

/-- Distinct blocks share no state: a step of one is a step of that block and leaves the others alone
(R32, R85). That a fault or refusal of one block stops the whole row is the model's choice (log 19). -/
def Obligations.DistinctBlocksShareNoState : Prop :=
  ∀ (k : Nat) (blocks : List State) (s : State), blocks[k]? = some s →
    (∀ t, step s = .next t → ∃ after, stepBlock k blocks = .next after ∧ after[k]? = some t ∧
      ∀ j, j ≠ k → after[j]? = blocks[j]?) ∧
    (∀ f, step s = .fault f → stepBlock k blocks = .fault f) ∧
    (∀ r, step s = .refused r → stepBlock k blocks = .refused r)

/-- Any of the six operations, given values read from RES (the same one twice among them), uses the values
RES held before it. -/
def Obligations.ReadValuesMayBeOperands : Prop :=
  ∀ (s : State) (w : Width) (A B : BitVec w.bits), s.res.w = some w →
    s.res.hi = some (w.word A) ∨ s.res.lo = some (w.word A) →
    s.res.hi = some (w.word B) ∨ s.res.lo = some (w.word B) →
    (s.res.readHi w = .next (w.word A) ∨ s.res.readLo w = .next (w.word A)) ∧
    (s.res.readHi w = .next (w.word B) ∨ s.res.readLo w = .next (w.word B)) ∧
    (∃ p : Wide w.bits, p.uint = A.toNat * B.toNat ∧
      exec (.mulu w (w.word A) (w.word B)) s = .next (afterFull s w p)) ∧
    (∃ p : Wide w.bits, p.sint = A.toInt * B.toInt ∧
      exec (.muls w (w.word A) (w.word B)) s = .next (afterFull s w p)) ∧
    (∃ p : Wide w.bits, p.sint = A.toInt * (B.toNat : Int) ∧
      exec (.mulsu w (w.word A) (w.word B)) s = .next (afterFull s w p)) ∧
    (∃ hi : BitVec w.bits, hi.toNat = A.toNat * B.toNat / 2 ^ w.bits ∧
      exec (.mulhu w (w.word A) (w.word B)) s = .next (afterHigh s w hi)) ∧
    (∃ hi : BitVec w.bits, hi.toInt = A.toInt * B.toInt / 2 ^ w.bits ∧
      exec (.mulhs w (w.word A) (w.word B)) s = .next (afterHigh s w hi)) ∧
    (∃ hi : BitVec w.bits, hi.toInt = A.toInt * (B.toNat : Int) / 2 ^ w.bits ∧
      exec (.mulhsu w (w.word A) (w.word B)) s = .next (afterHigh s w hi))

/-! ### The assembler -/

/-- R42, its rule for literals. -/
def Obligations.AssemblerAcceptsLiteralsInRange : Prop :=
  ∀ (w : Width) (n : Int),
    (InRange w n → assembleLiteral w n = some (w.word (BitVec.ofInt w.bits n))) ∧
    (¬ InRange w n → assembleLiteral w n = none)

/-- R42: the line `<mnemonic>.<w> X, Y` assembles to its operation, whatever the case of the mnemonic
and whether a literal is decimal or hexadecimal; a literal out of range is rejected. That hexadecimal digits
may be of either case and that zeros may lead them are the model's choices (log 15). -/
def Obligations.AssembledLineIsItsOperation : Prop :=
  ∀ (w : Width) (nx ny : Int) (name xText yText : List Char) (op : Width → Word → Word → Instr),
    op ∈ [Instr.mulu, Instr.muls, Instr.mulsu, Instr.mulhu, Instr.mulhs, Instr.mulhsu] →
    name.map Char.toLower = mnemonicText (op w 0#64 0#64) → Spells xText nx → Spells yText ny →
    (InRange w nx → InRange w ny →
      assemble (name ++ ['.'] ++ widthText w ++ [' '] ++ xText ++ [',', ' '] ++ yText) =
        some (op w (w.word (BitVec.ofInt w.bits nx)) (w.word (BitVec.ofInt w.bits ny)))) ∧
    (¬ (InRange w nx ∧ InRange w ny) →
      assemble (name ++ ['.'] ++ widthText w ++ [' '] ++ xText ++ [',', ' '] ++ yText) = none)
end

