-- ==== Sys2Proof/Laws/Decode.lean ====
section
/-! SUPPORT. The fields of a command word, and what the decoder can answer. -/

namespace Sys2Proof

/-- The WSEL code of a width selects that width. -/
@[simp] theorem widthOfWsel_wsel (w : Width) : widthOfWsel w.wsel = w := by cases w <;> rfl

/-- Distinct codes select distinct widths. -/
@[simp] theorem wsel_widthOfWsel (c : BitVec 2) : (widthOfWsel c).wsel = c := by
  revert c; decide

@[simp] theorem wselField_commandWord (wsel sgn : BitVec 2) (high : Bool) :
    wselField (commandWord wsel high sgn) = wsel := by
  revert wsel high sgn; decide

@[simp] theorem highField_commandWord (wsel sgn : BitVec 2) (high : Bool) :
    highField (commandWord wsel high sgn) = high := by
  revert wsel high sgn; decide

@[simp] theorem sgnField_commandWord (wsel sgn : BitVec 2) (high : Bool) :
    sgnField (commandWord wsel high sgn) = sgn := by
  revert wsel high sgn; decide

/-- A command word is its three fields. -/
theorem commandWord_fields (c : BitVec 5) : commandWord (wselField c) (highField c) (sgnField c) = c := by
  revert c; decide

/-- A command word fits 5 bits of its byte. -/
theorem setWidth_command_lt (c : BitVec 5) : (c.setWidth 8).toNat < 32 := by
  revert c; decide

/-- Nothing of a command word is lost in its byte. -/
@[simp] theorem setWidth_setWidth_command (c : BitVec 5) : (c.setWidth 8).setWidth 5 = c := by
  revert c; decide

/-- Only SGN = 11 selects no operation. -/
theorem selectOperation_eq_none {high : Bool} {sgn : BitVec 2} :
    selectOperation high sgn = none ↔ sgn = 0b11#2 := by
  revert high sgn; decide

/-- The operand check passes an operation on unchanged, exactly when it is well formed. -/
theorem checkOperands_ok {i j : Instr} : checkOperands i = .ok j ↔ i.wellFormed = true ∧ i = j := by
  by_cases h : i.wellFormed = true <;> simp [checkOperands, h]

/-- What it takes to decode: a 5-bit command that selects an operation, and operands that fit. -/
theorem decode_ok_cases {t : Transaction} {i : Instr} (h : decode t = .ok i) :
    t.cmd.toNat < 32 ∧ ∃ operation,
      selectOperation (highField (t.cmd.setWidth 5)) (sgnField (t.cmd.setWidth 5)) = some operation ∧
      i = operation (widthOfWsel (wselField (t.cmd.setWidth 5))) t.x t.y ∧ i.wellFormed = true := by
  simp only [decode, decodeCommand] at h
  split at h
  · rename_i hc
    split at h
    · cases h
    · rename_i operation hop
      obtain ⟨hw, rfl⟩ := checkOperands_ok.mp h
      exact ⟨hc, operation, hop, rfl, hw⟩
  · cases h

end Sys2Proof
end

