-- ==== Sys2Proof/Laws/Operands.lean ====
section
/-! SUPPORT. Containers and ports: a w-bit value survives its container, and the values that fit a port
are exactly the contained ones. -/

namespace Sys2Proof

/-- No width is wider than the container. -/
theorem two_pow_bits_le (w : Width) : 2 ^ w.bits ≤ 2 ^ 64 := by cases w <;> decide

/-- A container holds a w-bit value as the same number. -/
@[simp] theorem word_toNat (w : Width) (v : BitVec w.bits) : (w.word v).toNat = v.toNat := by
  have h := lt_of_lt_of_le v.isLt (two_pow_bits_le w)
  simpa [Width.word] using Nat.mod_eq_of_lt h

/-- Sampling the container of a w-bit value gives the value back. -/
@[simp] theorem portValue_word (w : Width) (v : BitVec w.bits) : portValue w (w.word v) = v :=
  BitVec.eq_of_toNat_eq (by simp [portValue])

/-- A contained w-bit value fits its port. -/
@[simp] theorem fits_word (w : Width) (v : BitVec w.bits) : w.fits (w.word v) = true := by
  simpa [Width.fits] using v.isLt

/-- The container of what a port samples is the operand itself when it fits. -/
theorem word_portValue {w : Width} {v : Word} (h : w.fits v = true) : w.word (portValue w v) = v := by
  have h' : v.toNat < 2 ^ w.bits := by simpa [Width.fits] using h
  exact BitVec.eq_of_toNat_eq (by simpa [portValue] using Nat.mod_eq_of_lt h')

/-- The values that fit a port are exactly the contained w-bit values. -/
theorem fits_iff_word {w : Width} {v : Word} : w.fits v = true ↔ ∃ x : BitVec w.bits, v = w.word x :=
  ⟨fun h => ⟨portValue w v, (word_portValue h).symm⟩, by rintro ⟨x, rfl⟩; simp⟩

/-- Distinct w-bit values have distinct containers. -/
theorem word_injective {w : Width} {a b : BitVec w.bits} (h : w.word a = w.word b) : a = b := by
  have := congrArg (portValue w) h
  simpa using this

end Sys2Proof
end

