-- ==== Sys2Proof/Laws/State.lean ====
section
/-! SUPPORT. One lemma per field per update of the state, so that no proof unfolds a record update. -/

namespace Sys2Proof.Machine

section
variable (s : State) (w : Width) (p : Wide w.bits) (h : BitVec w.bits) (t : Transaction)

@[simp] theorem State.completeFull_res :
    (s.completeFull w p).res = ⟨some w, some (w.word p.hi), some (w.word p.lo)⟩ := rfl
@[simp] theorem State.completeFull_pending : (s.completeFull w p).pending = s.pending := rfl
@[simp] theorem State.completeFull_returned :
    (s.completeFull w p).returned = s.returned ++ [.full w (w.word p.hi) (w.word p.lo)] := rfl
@[simp] theorem State.completeFull_reads : (s.completeFull w p).reads = s.reads := rfl

@[simp] theorem State.completeHigh_res :
    (s.completeHigh w h).res = ⟨some w, some (w.word h), none⟩ := rfl
@[simp] theorem State.completeHigh_pending : (s.completeHigh w h).pending = s.pending := rfl
@[simp] theorem State.completeHigh_returned :
    (s.completeHigh w h).returned = s.returned ++ [.high w (w.word h)] := rfl
@[simp] theorem State.completeHigh_reads : (s.completeHigh w h).reads = s.reads := rfl

@[simp] theorem State.resetBlock_res : s.resetBlock.res = Res.empty := rfl
@[simp] theorem State.resetBlock_pending : s.resetBlock.pending = s.pending := rfl
@[simp] theorem State.resetBlock_returned : s.resetBlock.returned = s.returned := rfl
@[simp] theorem State.resetBlock_reads : s.resetBlock.reads = s.reads := rfl

@[simp] theorem issueNext_res : (issueNext s t).res = s.res := rfl
@[simp] theorem issueNext_pending : (issueNext s t).pending = .issue t :: s.pending := rfl
@[simp] theorem issueNext_returned : (issueNext s t).returned = s.returned := rfl
@[simp] theorem issueNext_reads : (issueNext s t).reads = s.reads := rfl

@[simp] theorem State.reset_res : State.reset.res = Res.empty := rfl
@[simp] theorem State.reset_pending : State.reset.pending = [] := rfl
@[simp] theorem State.reset_returned : State.reset.returned = [] := rfl
@[simp] theorem State.reset_reads : State.reset.reads = [] := rfl

end
end Sys2Proof.Machine
end

