-- ==== Sys2Proof/Laws/Ops.lean ====
section
/-! SUPPORT. One lemma per shared operation: everything it can answer. -/

namespace Sys2Proof.Machine

/-- A cell read gives a value exactly when the cell holds it and RES.w is the width asked for. -/
theorem readCell_next {tag : Option Width} {cell : Option Word} {empty : Fault} {w : Width} {v : Word} :
    readCell tag cell empty w = .next v ↔ cell = some v ∧ tag = some w := by
  cases cell with
  | none => simp [readCell]
  | some u => by_cases h : tag = some w <;> simp [readCell, h]

/-- A cell read faults exactly when the cell holds no value. -/
theorem readCell_fault {tag : Option Width} {cell : Option Word} {empty f : Fault} {w : Width} :
    readCell tag cell empty w = .fault f ↔ cell = none ∧ f = empty := by
  cases cell with
  | none => simp [readCell, eq_comm]
  | some u => by_cases h : tag = some w <;> simp [readCell, h]

/-- A cell read is refused exactly when the cell holds a value of another width. -/
theorem readCell_refused {tag : Option Width} {cell : Option Word} {empty : Fault} {w : Width} {r : Refusal} :
    readCell tag cell empty w = .refused r ↔ cell ≠ none ∧ tag ≠ some w ∧ r = .widthMismatch := by
  cases cell with
  | none => simp [readCell]
  | some u => by_cases h : tag = some w <;> simp [readCell, h, eq_comm]

/-- The width tag is read exactly when there is one. -/
theorem readWidth_next {r : Res} {w : Width} : r.readWidth = .next w ↔ r.w = some w := by
  cases h : r.w <;> simp [Res.readWidth, h]

/-- There is a byte view exactly when all three cells hold a value. -/
theorem readView_next {o : ByteOrder} {r : Res} {bytes : List Byte} :
    r.readView o = .next bytes ↔ ∃ w hi lo, r = ⟨some w, some hi, some lo⟩ ∧
      bytes = Wide.view o ⟨portValue w hi, portValue w lo⟩ := by
  obtain ⟨w, hi, lo⟩ := r
  constructor
  · intro h
    cases w <;> cases hi <;> cases lo <;> simp [Res.readView] at h
    exact ⟨_, _, _, rfl, h.symm⟩
  · rintro ⟨w, hi, lo, hr, rfl⟩
    cases hr
    rfl

/-- A read that answers a next state only adds the value it read to the values read. -/
theorem logRead_next {α : Type} {s t : State} {tag : α → ReadValue} {o : Host.Outcome α Fault Refusal} :
    s.logRead tag o = .next t ↔ ∃ v, o = .next v ∧ t = { s with reads := s.reads ++ [tag v] } := by
  cases o <;> simp [State.logRead, eq_comm]

section
variable (w : Width) (x y : Word) (s : State)

@[simp] theorem exec_mulu : exec (.mulu w x y) s =
    .next (s.completeFull w (fullProduct .uu (portValue w x) (portValue w y))) := rfl
@[simp] theorem exec_muls : exec (.muls w x y) s =
    .next (s.completeFull w (fullProduct .ss (portValue w x) (portValue w y))) := rfl
@[simp] theorem exec_mulsu : exec (.mulsu w x y) s =
    .next (s.completeFull w (fullProduct .su (portValue w x) (portValue w y))) := rfl
@[simp] theorem exec_mulhu : exec (.mulhu w x y) s =
    .next (s.completeHigh w (highProduct .uu (portValue w x) (portValue w y))) := rfl
@[simp] theorem exec_mulhs : exec (.mulhs w x y) s =
    .next (s.completeHigh w (highProduct .ss (portValue w x) (portValue w y))) := rfl
@[simp] theorem exec_mulhsu : exec (.mulhsu w x y) s =
    .next (s.completeHigh w (highProduct .su (portValue w x) (portValue w y))) := rfl

end

/-- Any operation completes as a full or as a high variant, with a product that does not depend on the
state. -/
theorem exec_completes (i : Instr) :
    (i.high = false ∧ ∃ p : Wide i.width.bits, ∀ s, exec i s = .next (s.completeFull i.width p)) ∨
    (i.high = true ∧ ∃ h : BitVec i.width.bits, ∀ s, exec i s = .next (s.completeHigh i.width h)) := by
  cases i
  case mulu => exact .inl ⟨rfl, _, fun _ => rfl⟩
  case muls => exact .inl ⟨rfl, _, fun _ => rfl⟩
  case mulsu => exact .inl ⟨rfl, _, fun _ => rfl⟩
  case mulhu => exact .inr ⟨rfl, _, fun _ => rfl⟩
  case mulhs => exact .inr ⟨rfl, _, fun _ => rfl⟩
  case mulhsu => exact .inr ⟨rfl, _, fun _ => rfl⟩

end Sys2Proof.Machine
end

