-- ==== Sys2Proof/Laws/PerInstr.lean ====
section
/-! SUPPORT. Statements about every operation as a term, one lemma per constructor. -/

namespace Sys2Proof.Laws.CommandWord

/-- An operation's command word is one of the 32 values of CMD, its SGN field is not the reserved 11, and
the fields select the operation itself (R34, R37, R40). -/
def Statement (i : Instr) : Prop :=
  (encode i).cmd.toNat < 32 ∧ sgnField i.command ≠ 0b11#2 ∧
  (selectOperation (highField i.command) (sgnField i.command)).map
    (fun operation => operation (widthOfWsel (wselField i.command)) i.x i.y) = some i

theorem mulu (w : Width) (x y : Word) : Statement (.mulu w x y) := by
  refine ⟨setWidth_command_lt _, ?_, ?_⟩ <;>
    simp [Instr.command, Instr.signedness, Signedness.sgn, Instr.high, selectOperation, Instr.width, Instr.x, Instr.y]

theorem muls (w : Width) (x y : Word) : Statement (.muls w x y) := by
  refine ⟨setWidth_command_lt _, ?_, ?_⟩ <;>
    simp [Instr.command, Instr.signedness, Signedness.sgn, Instr.high, selectOperation, Instr.width, Instr.x, Instr.y]

theorem mulsu (w : Width) (x y : Word) : Statement (.mulsu w x y) := by
  refine ⟨setWidth_command_lt _, ?_, ?_⟩ <;>
    simp [Instr.command, Instr.signedness, Signedness.sgn, Instr.high, selectOperation, Instr.width, Instr.x, Instr.y]

theorem mulhu (w : Width) (x y : Word) : Statement (.mulhu w x y) := by
  refine ⟨setWidth_command_lt _, ?_, ?_⟩ <;>
    simp [Instr.command, Instr.signedness, Signedness.sgn, Instr.high, selectOperation, Instr.width, Instr.x, Instr.y]

theorem mulhs (w : Width) (x y : Word) : Statement (.mulhs w x y) := by
  refine ⟨setWidth_command_lt _, ?_, ?_⟩ <;>
    simp [Instr.command, Instr.signedness, Signedness.sgn, Instr.high, selectOperation, Instr.width, Instr.x, Instr.y]

theorem mulhsu (w : Width) (x y : Word) : Statement (.mulhsu w x y) := by
  refine ⟨setWidth_command_lt _, ?_, ?_⟩ <;>
    simp [Instr.command, Instr.signedness, Signedness.sgn, Instr.high, selectOperation, Instr.width, Instr.x, Instr.y]

end Sys2Proof.Laws.CommandWord
end

