-- ==== Sys2Proof/Laws/Step.lean ====
section
/-! SUPPORT. What a step can do, said once, and how a run unfolds. -/

namespace Sys2Proof.Machine

/-- With a request pending, a step performs the oldest one. -/
theorem step_of_pending {s : State} {e : Event} {rest : List Event} (h : s.pending = e :: rest) :
    step s = perform e { s with pending := rest } := by
  simp [step, h]

/-- An issued transaction either is performed or is refused, by what the decoder says. -/
theorem performIssue_next {t : Transaction} {s u : State} :
    performIssue t s = .next u ↔ ∃ i, decode t = .ok i ∧ exec i s = .next u := by
  cases h : decode t <;> simp [performIssue, h]

/-- All the ways in which a request can be performed. -/
theorem perform_next_cases {e : Event} {s t : State} (h : perform e s = .next t) :
    (∃ tr i, e = .issue tr ∧ decode tr = .ok i ∧ exec i s = .next t) ∨
    (∃ v, (e = .readWidth ∨ (∃ w, e = .readHi w) ∨ (∃ w, e = .readLo w) ∨ e = .readView) ∧
      t = { s with reads := s.reads ++ [v] }) ∨
    (e = .reset ∧ t = s.resetBlock) := by
  cases e with
  | issue tr =>
    obtain ⟨i, hd, hx⟩ := performIssue_next.mp h
    exact .inl ⟨tr, i, rfl, hd, hx⟩
  | readWidth =>
    obtain ⟨v, -, ht⟩ := logRead_next.mp h
    exact .inr (.inl ⟨_, .inl rfl, ht⟩)
  | readHi w =>
    obtain ⟨v, -, ht⟩ := logRead_next.mp h
    exact .inr (.inl ⟨_, .inr (.inl ⟨w, rfl⟩), ht⟩)
  | readLo w =>
    obtain ⟨v, -, ht⟩ := logRead_next.mp h
    exact .inr (.inl ⟨_, .inr (.inr (.inl ⟨w, rfl⟩)), ht⟩)
  | readView =>
    obtain ⟨v, -, ht⟩ := logRead_next.mp h
    exact .inr (.inl ⟨_, .inr (.inr (.inr rfl)), ht⟩)
  | reset =>
    have ht : s.resetBlock = t := by simpa [perform] using h
    exact .inr (.inr ⟨rfl, ht.symm⟩)

/-- A run goes on from a next state. -/
theorem run_of_next {s t : State} (k : Nat) (h : step s = .next t) : core.run (k + 1) s = core.run k t := by
  have h' : core.step s = .next t := h
  simp [Host.Core.run, h']

/-- A run stops where a step is refused. -/
theorem run_of_refused {s : State} {r : Refusal} (k : Nat) (h : step s = .refused r) :
    core.run (k + 1) s = .refused r := by
  have h' : core.step s = .refused r := h
  simp [Host.Core.run, h']

/-- A run stops where a step faults. -/
theorem run_of_fault {s : State} {f : Fault} (k : Nat) (h : step s = .fault f) :
    core.run (k + 1) s = .fault f := by
  have h' : core.step s = .fault f := h
  simp [Host.Core.run, h']

end Sys2Proof.Machine
end

