-- ==== Sys2Proof/Tests/Slice0.lean ====
section
/-! SUPPORT. Small tests, with results taken from the spec's examples and tables, and a witness for the
hypotheses of each statement. -/

namespace Sys2Proof.Tests

open Sys2Proof.Machine Sys2Proof.Spec

/-- RES of a next state. -/
def resOf : Host.Outcome State Fault Refusal → Option Res
  | .next t => some t.res
  | _ => none

/-- The refusal of an outcome. -/
def refusalIn : Host.Outcome State Fault Refusal → Option Refusal
  | .refused r => some r
  | _ => none

/-- The fault of an outcome. -/
def faultIn : Host.Outcome State Fault Refusal → Option Fault
  | .fault f => some f
  | _ => none

/-- The byte view of an outcome. -/
def viewIn : Host.Outcome (List Byte) Fault Refusal → Option (List Byte)
  | .next bytes => some bytes
  | _ => none

/-- The operation a transaction decodes to. -/
def decoded (t : Transaction) : Option Instr :=
  match decode t with
  | .ok i => some i
  | .error _ => none

/-- Why a transaction does not decode. -/
def rejected (t : Transaction) : Option DecodeError :=
  match decode t with
  | .ok _ => none
  | .error e => some e

/-- RES with all cells written, and with the low limb ⊥. -/
def full (w : Width) (hi lo : Word) : Option Res := some ⟨some w, some hi, some lo⟩
def high (w : Width) (hi : Word) : Option Res := some ⟨some w, some hi, none⟩

/-- A state with the given RES and requests. -/
def stateWith (r : Res) (pending : List Event) : State := ⟨r, pending, [], []⟩

/-! ### WellFormed (one ill-formed term for each check) -/

theorem test_wellFormed_accepts_bounds : (Instr.mulu .w8 0xFF#64 0x00#64).wellFormed = true := by decide
theorem test_wellFormed_refuses_wide_x : (Instr.mulu .w8 0x1FE#64 0#64).wellFormed = false := by decide
theorem test_wellFormed_refuses_wide_y : (Instr.mulhs .w32 0#64 0x100000000#64).wellFormed = false := by decide
/-- spec/95_test_vectors.md part 2.8: mulu.8 with X = 0x1FE is not expressible. -/
theorem test_decode_refuses_wide_operand :
    rejected ⟨0b00000#8, 0x1FE#64, 0#64⟩ = some .operandTooWide := by decide

/-! ### Decoding: words written out from R34 to R37 as WSEL, HIGH, SGN -/

theorem test_decode_mulu_8 : decoded ⟨0b00_0_00#8, 254#64, 254#64⟩ = some (.mulu .w8 254#64 254#64) := by decide
theorem test_decode_muls_16 : decoded ⟨0b01_0_01#8, 1#64, 2#64⟩ = some (.muls .w16 1#64 2#64) := by decide
theorem test_decode_mulsu_32 : decoded ⟨0b10_0_10#8, 1#64, 2#64⟩ = some (.mulsu .w32 1#64 2#64) := by decide
theorem test_decode_mulhu_64 : decoded ⟨0b11_1_00#8, 1#64, 2#64⟩ = some (.mulhu .w64 1#64 2#64) := by decide
theorem test_decode_mulhs_64 : decoded ⟨0b11_1_01#8, 1#64, 2#64⟩ = some (.mulhs .w64 1#64 2#64) := by decide
theorem test_decode_mulhsu_8 : decoded ⟨0b00_1_10#8, 1#64, 2#64⟩ = some (.mulhsu .w8 1#64 2#64) := by decide
theorem test_decode_reserved_03 : rejected ⟨0x03#8, 0#64, 0#64⟩ = some .reservedCommand := by decide
theorem test_decode_reserved_1F : rejected ⟨0x1F#8, 0#64, 0#64⟩ = some .reservedCommand := by decide
theorem test_decode_no_sixth_bit : rejected ⟨0x20#8, 0#64, 0#64⟩ = some .notACommandWord := by decide
theorem test_encode_mulhs_64 : (encode (.mulhs .w64 0x8000000000000000#64 1#64)).cmd = 0x1D#8 := by decide
theorem test_table_word : decodeTableWord 8 0x0A = some (.mulsu .w16 0#64 0#64) := by decide
theorem test_table_word_reserved : decodeTableWord 8 0x07 = none := by decide
theorem test_fetch_word_runs : resOf (step (State.reset.withFetchWord 8 0x19)) = full .w64 0#64 0#64 := by decide
theorem test_call_interface_false_true :
    rejected (callTransaction true .w8 false true 1#64 1#64) = some .reservedCommand := by decide

/-! ### The operations: spec/95_test_vectors.md part 1 (S1 to S7) and part 2.4 -/

theorem test_S1_mulu_8 : resOf (exec (.mulu .w8 254#64 254#64) State.reset) = full .w8 252#64 4#64 := by decide
theorem test_S6_mulu_64 :
    resOf (exec (.mulu .w64 0xFFFFFFFFFFFFFFFF#64 0xFFFFFFFFFFFFFFFF#64) State.reset) =
      full .w64 0xFFFFFFFFFFFFFFFE#64 1#64 := by decide
theorem test_S2_muls_8 : resOf (exec (.muls .w8 0x80#64 0x80#64) State.reset) = full .w8 0x40#64 0x00#64 := by decide
theorem test_S7_muls_16 :
    resOf (exec (.muls .w16 0x8000#64 0x8000#64) State.reset) = full .w16 0x4000#64 0x0000#64 := by decide
/-- The negative vector of C1: a magnitude without the +1 would give 0 here. -/
theorem test_C1_signed_path : signedPath 0xFF#8 0x01#8 = ⟨0xFF#8, 0xFF#8⟩ := by decide
theorem test_mulsu_8_negative : resOf (exec (.mulsu .w8 0xFF#64 0x01#64) State.reset) = full .w8 0xFF#64 0xFF#64 := by decide
theorem test_mulsu_32 :
    resOf (exec (.mulsu .w32 0xDEADBEEF#64 0xCAFEBABE#64) State.reset) =
      full .w32 0xE593F0BD#64 0x88CF5B62#64 := by decide
theorem test_S5_mulhu_8 : resOf (exec (.mulhu .w8 254#64 254#64) State.reset) = high .w8 252#64 := by decide
theorem test_mulhu_64 :
    resOf (exec (.mulhu .w64 0xFFFFFFFFFFFFFFFF#64 2#64) State.reset) = high .w64 1#64 := by decide
theorem test_S3_mulhs_8 : resOf (exec (.mulhs .w8 0x80#64 0x80#64) State.reset) = high .w8 64#64 := by decide
theorem test_mulhs_32 :
    resOf (exec (.mulhs .w32 0x80000000#64 3#64) State.reset) = high .w32 0xFFFFFFFE#64 := by decide
/-- S4, the borrow case of R69: 0x80 here would be the result without the borrow. -/
theorem test_S4_mulhsu_8 : resOf (exec (.mulhsu .w8 0x80#64 0xFE#64) State.reset) = high .w8 0x81#64 := by decide
theorem test_mulhsu_swapped : resOf (exec (.mulhsu .w8 0x01#64 0xFF#64) State.reset) = high .w8 0x00#64 := by decide
theorem test_returned_values :
    (match exec (.mulhu .w8 254#64 254#64) State.reset with
      | .next t => t.returned
      | _ => []) = [.high .w8 252#64] := by decide

/-! ### Datapath traces: spec/95_test_vectors.md parts 2.1 and 2.2 -/

theorem test_kernel_trace_8 : kernelSignals 0xFE#8 0xFE#8 =
    { x0 := 0xE#4, x1 := 0xF#4, y0 := 0xE#4, y1 := 0xF#4, z0 := 0xC4#8, z1 := 0xD2#8, z2 := 0xD2#8, z3 := 0xE1#8,
      z4 := 0xA4#8, c1 := true, c2 := true, hi := 0xFC#8, lo := 0x04#8 } := by decide
theorem test_kernel_trace_16 : kernelSignals 0x1234#16 0x5678#16 =
    { x0 := 0x34#8, x1 := 0x12#8, y0 := 0x78#8, y1 := 0x56#8, z0 := 0x1860#16, z1 := 0x0870#16, z2 := 0x1178#16,
      z3 := 0x060C#16, z4 := 0x19E8#16, c1 := false, c2 := true, hi := 0x0626#16, lo := 0x0060#16 } := by decide
theorem test_negation_trace_zero :
    negationSignals (Wide.mk 0x00#8 0x00#8) = { lo2 := 0xFF#8, hib := true, hi2 := 0xFF#8 } ∧
    negateWide (Wide.mk 0x00#8 0x00#8) = ⟨0x00#8, 0x00#8⟩ := by decide
theorem test_negation_trace_mulsu :
    negationSignals (Wide.mk 0x7F#8 0x00#8) = { lo2 := 0xFF#8, hib := true, hi2 := 0x7E#8 } ∧
    negateWide (Wide.mk 0x7F#8 0x00#8) = ⟨0x81#8, 0x00#8⟩ := by decide
theorem test_magnitude_min : magnitude 0x80#8 = 0x80#8 ∧ magnitude 0xFB#8 = 0x05#8 := by decide

/-! ### Reads of RES: spec/95_test_vectors.md part 2.8 -/

theorem test_read_after_reset : faultIn (step (stateWith Res.empty [.readHi .w8])) = some .resHiEmpty := by decide
theorem test_read_lo_after_mulhu :
    faultIn (core.run 2 (stateWith Res.empty [.issue (encode (.mulhu .w8 1#64 1#64)), .readLo .w8])) =
      some .resLoEmpty := by decide
theorem test_read_at_other_width :
    refusalIn (core.run 2 (stateWith Res.empty [.issue (encode (.mulu .w8 1#64 1#64)), .readHi .w64])) =
      some .widthMismatch := by decide
theorem test_read_gives_limb :
    (match core.run 2 (stateWith Res.empty [.issue (encode (.mulu .w8 254#64 254#64)), .readHi .w8]) with
      | .next t => t.reads
      | _ => []) = [.hi .w8 252#64] := by decide
theorem test_reserved_command_is_refused :
    refusalIn (step (stateWith Res.empty [.issue ⟨0x03#8, 1#64, 1#64⟩])) = some .reservedCommand := by decide
theorem test_reset_empties_res :
    resOf (step (stateWith ⟨some .w8, some 1#64, none⟩ [.reset])) = some Res.empty := by decide

/-! ### The byte view: spec/95_test_vectors.md part 2.6 -/

theorem test_view_little : viewIn (Res.readView .little ⟨some .w16, some 0x0626#64, some 0x0060#64⟩) =
    some [0x60#8, 0x00#8, 0x26#8, 0x06#8] := by decide
theorem test_view_big : viewIn (Res.readView .big ⟨some .w32, some 0xB092AB7B#64, some 0x88CF5B62#64⟩) =
    some [0xB0#8, 0x92#8, 0xAB#8, 0x7B#8, 0x88#8, 0xCF#8, 0x5B#8, 0x62#8] := by decide
theorem test_view_of_high_variant_is_refused :
    refusalIn (step (stateWith ⟨some .w8, some 1#64, none⟩ [.readView])) = some .noByteView := by decide
theorem test_view_after_reset : faultIn (step (stateWith Res.empty [.readView])) = some .resWidthEmpty := by decide

/-! ### The assembler: the examples of R42 -/

theorem test_assemble_decimal :
    assemble ['m', 'u', 'l', 'u', '.', '8', ' ', '2', '5', '4', ',', ' ', '2', '5', '4'] =
      some (.mulu .w8 254#64 254#64) := by decide
theorem test_assemble_negative_and_hex :
    assemble ['M', 'u', 'l', 'H', 's', '.', '1', '6', ' ', '0', 'x', '8', '0', '0', '0', ',', ' ', '-', '1'] =
      some (.mulhs .w16 0x8000#64 0xFFFF#64) := by decide
/-- spec/95_test_vectors.md part 3, program 3, step 1. -/
theorem test_assemble_upper_case_hex :
    assemble ['m', 'u', 'l', 'u', '.', '1', '6', ' ', '0', 'x', 'B', 'E', 'E', 'F', ',', ' ', '0', 'x', 'B', 'A', 'B',
        'E'] = some (.mulu .w16 0xBEEF#64 0xBABE#64) := by decide
/-- The model's choices of log 15. -/
theorem test_assemble_without_space_after_comma :
    assemble ['m', 'u', 'l', 'u', '.', '8', ' ', '1', ',', '2'] = some (.mulu .w8 1#64 2#64) := by decide
theorem test_assemble_rejects_outer_spaces :
    assemble [' ', 'm', 'u', 'l', 'u', '.', '8', ' ', '1', ',', '2'] = none ∧
    assemble ['m', 'u', 'l', 'u', '.', '8', ' ', '1', ',', '2', ' '] = none := by decide
theorem test_literal_minus_zero : parseLiteral ['-', '0'] = some 0 ∧ parseLiteral ['+', '1'] = none := by decide
theorem test_literal_bounds :
    assembleLiteral .w8 255 = some 255#64 ∧ assembleLiteral .w8 256 = none ∧
    assembleLiteral .w8 (-128) = some 0x80#64 ∧ assembleLiteral .w8 (-129) = none := by decide

/-! ### Several blocks -/

theorem test_step_of_one_block :
    (match stepBlock 1 [State.reset, stateWith Res.empty [.issue (encode (.mulu .w8 2#64 3#64))]] with
      | .next bs => bs.map State.res
      | _ => []) = [Res.empty, ⟨some .w8, some 0#64, some 6#64⟩] := by decide

/-- A refusal of one block stops the row (log 19). -/
theorem test_refusal_of_one_block_stops_the_row :
    (match stepBlock 0 [stateWith Res.empty [.issue ⟨0x03#8, 0#64, 0#64⟩], State.reset] with
      | .refused r => some r
      | _ => none) = some .reservedCommand := by decide

/-! ### Witnesses: a concrete case that meets all hypotheses of a statement, one for each clause -/

theorem witness_EncodedInstructionDecodesToItself :
    (Instr.mulhsu .w64 0xFFFFFFFFFFFFFFFF#64 0#64).wellFormed = true := by decide

theorem witness_DecodedTransactionIsItsEncoding :
    decode ⟨0x1E#8, 0xFFFFFFFFFFFFFFFF#64, 0#64⟩ = .ok (.mulhsu .w64 0xFFFFFFFFFFFFFFFF#64 0#64) := by rfl

theorem witness_CommandMapOfTheSpec : decode ⟨0x00#8, 0xFF#64, 0#64⟩ = .ok (.mulu .w8 0xFF#64 0#64) := by rfl

theorem witness_ReservedCommandsAreRefused :
    (0x1F#8).toNat < 32 ∧ 0x1F#8 ∈ [0x03#8, 0x07#8, 0x0B#8, 0x0F#8, 0x13#8, 0x17#8, 0x1B#8, 0x1F#8] ∧
    (stateWith Res.empty [.issue ⟨0x1F#8, 0#64, 0#64⟩]).pending = .issue ⟨0x1F#8, 0#64, 0#64⟩ :: [] := by decide

theorem witness_ReservedCommandsAreRefused_others :
    (0x1E#8).toNat < 32 ∧ 0x1E#8 ∉ [0x03#8, 0x07#8, 0x0B#8, 0x0F#8, 0x13#8, 0x17#8, 0x1B#8, 0x1F#8] := by decide

theorem witness_InexpressibleTransactionsAreRefused :
    (Instr.mulu .w8 0x100#64 0#64).wellFormed = false ∧
    32 ≤ (Transaction.mk 0x20#8 0#64 0#64).cmd.toNat := by decide

theorem witness_StepRunsTheDecodedInstruction :
    (stateWith Res.empty [.issue ⟨0x06#8, 0x80#64, 0xFE#64⟩]).pending = .issue ⟨0x06#8, 0x80#64, 0xFE#64⟩ :: [] ∧
    decode ⟨0x06#8, 0x80#64, 0xFE#64⟩ = .ok (.mulhsu .w8 0x80#64 0xFE#64) := ⟨rfl, rfl⟩

theorem witness_PlacedTableWordRunsItsInstruction :
    decodeTableWord 8 0x1E = some (.mulhsu .w64 0#64 0#64) := by decide

theorem witness_IdleBlockKeepsItsState : (stateWith ⟨some .w8, some 1#64, none⟩ []).pending = [] := by decide

theorem witness_EveryIssuedOperationCompletes_full :
    (Instr.muls .w8 0xFF#64 0xFF#64).wellFormed = true ∧ (Instr.muls .w8 0xFF#64 0xFF#64).high = false ∧
    (stateWith Res.empty [.issue (encode (.muls .w8 0xFF#64 0xFF#64))]).pending =
      .issue (encode (.muls .w8 0xFF#64 0xFF#64)) :: [] := by decide

theorem witness_EveryIssuedOperationCompletes_high :
    (Instr.mulhu .w64 0#64 1#64).wellFormed = true ∧ (Instr.mulhu .w64 0#64 1#64).high = true ∧
    (stateWith Res.empty [.issue (encode (.mulhu .w64 0#64 1#64))]).pending =
      .issue (encode (.mulhu .w64 0#64 1#64)) :: [] := by decide

theorem witness_OperationsChangeOnlyResAndReturn :
    ∃ t, exec (.mulsu .w8 0x80#64 0xFE#64) State.reset = .next t := ⟨_, rfl⟩

theorem witness_MulsuLaws :
    ((maxPos .w8).msb = false ∧ maxPos .w8 = 0x7F#8) ∧ (0#64).msb = false := by decide

theorem witness_ReadsOfResCells_width :
    (stateWith Res.empty [.readWidth]).pending = .readWidth :: [] ∧ Res.empty.w = none ∧
    (stateWith ⟨some .w64, some 1#64, none⟩ [.readWidth]).res.w = some .w64 := by decide

theorem witness_ReadsOfResCells_hi :
    (stateWith Res.empty [.readHi .w8]).pending = .readHi .w8 :: [] ∧ Res.empty.hi = none ∧ Res.empty.w = none ∧
    (Res.mk (some .w8) (some 0xFF#64) none).hi = some 0xFF#64 ∧
    (Res.mk (some .w8) (some 0xFF#64) none).w = some .w8 ∧
    (Res.mk (some .w16) (some 0xFF#64) none).w ≠ some .w8 := by decide

theorem witness_ReadsOfResCells_lo :
    (stateWith ⟨some .w8, some 1#64, none⟩ [.readLo .w8]).pending = .readLo .w8 :: [] ∧
    (Res.mk (some .w8) (some 1#64) none).lo = none ∧ (Res.mk (some .w8) (some 1#64) none).w = some .w8 ∧
    (Res.mk (some .w16) (some 1#64) none).w ≠ some .w8 ∧
    (Res.mk (some .w8) (some 1#64) (some 0xFF#64)).lo = some 0xFF#64 := by decide

theorem witness_HighVariantsLeaveNoLowHalf :
    (Instr.mulhs .w16 0x8000#64 0xFFFF#64).wellFormed = true ∧ (Instr.mulhs .w16 0x8000#64 0xFFFF#64).high = true ∧
    (stateWith Res.empty [.issue (encode (.mulhs .w16 0x8000#64 0xFFFF#64)), .readLo .w16]).pending =
      .issue (encode (.mulhs .w16 0x8000#64 0xFFFF#64)) :: .readLo .w16 :: [] := by decide

theorem witness_NextReadSeesTheResult_full :
    (Instr.mulu .w16 0xFFFF#64 0xFFFF#64).wellFormed = true ∧ (Instr.mulu .w16 0xFFFF#64 0xFFFF#64).high = false ∧
    ∀ e ∈ [Event.readWidth, .readHi .w16, .readLo .w16, .readView],
      (stateWith Res.empty [.issue (encode (.mulu .w16 0xFFFF#64 0xFFFF#64)), e]).pending =
        .issue (encode (.mulu .w16 0xFFFF#64 0xFFFF#64)) :: e :: [] := by decide

theorem witness_NextReadSeesTheResult_high :
    (Instr.mulhs .w8 0x80#64 0xFF#64).wellFormed = true ∧ (Instr.mulhs .w8 0x80#64 0xFF#64).high = true ∧
    ∀ e ∈ [Event.readWidth, .readHi .w8, .readLo .w8, .readView],
      (stateWith Res.empty [.issue (encode (.mulhs .w8 0x80#64 0xFF#64)), e]).pending =
        .issue (encode (.mulhs .w8 0x80#64 0xFF#64)) :: e :: [] := by decide

theorem witness_ByteViewLittle_lastByte : 15 < 2 * Width.w64.bits / 8 ∧ 1 < 2 * Width.w8.bits / 8 := by decide

theorem witness_ByteViewBig_lastByte : 15 < 2 * Width.w64.bits / 8 ∧ 0 < 2 * Width.w8.bits / 8 := by decide

theorem witness_ByteViewReadsBack :
    Instr.mulhsu .w8 (Width.w8.word 0x80#8) (Width.w8.word 0xFE#8) ∈
      [.mulhu .w8 (Width.w8.word 0x80#8) (Width.w8.word 0xFE#8),
       .mulhs .w8 (Width.w8.word 0x80#8) (Width.w8.word 0xFE#8),
       .mulhsu .w8 (Width.w8.word 0x80#8) (Width.w8.word 0xFE#8)] := by decide

theorem witness_ByteViewReadGivesTheView :
    (stateWith ⟨some .w8, some 0xFC#64, some 0x04#64⟩ [.readView]).pending = .readView :: [] ∧
    (stateWith ⟨some .w8, some 0xFC#64, some 0x04#64⟩ [.readView]).res =
      ⟨some .w8, some (Width.w8.word 0xFC#8), some (Width.w8.word 0x04#8)⟩ ∧
    (stateWith ⟨some .w8, some 0xFC#64, none⟩ [.readView]).res =
      ⟨some .w8, some (Width.w8.word 0xFC#8), none⟩ := by decide

theorem witness_ResetLeavesNoValueInRes :
    (stateWith ⟨some .w8, some 1#64, none⟩ [.reset]).pending = .reset :: [] := by decide

theorem witness_EveryStepKeepsResInItsDomain :
    (stateWith ⟨some .w8, some 0xFF#64, none⟩ [.readHi .w8]).res.inDomain = true ∧
    ∃ t, step (stateWith ⟨some .w8, some 0xFF#64, none⟩ [.readHi .w8]) = .next t := ⟨by decide, _, rfl⟩

theorem witness_EveryStepKeepsTheInvariant :
    (State.mk ⟨some .w8, some 0xFF#64, none⟩ [.readHi .w8] [.high .w8 0xFF#64] []).Inv ∧
    ∃ t, step (State.mk ⟨some .w8, some 0xFF#64, none⟩ [.readHi .w8] [.high .w8 0xFF#64] []) = .next t :=
  ⟨⟨by decide, by decide⟩, _, rfl⟩

theorem witness_OnlyCompletedOperationsWriteRes :
    (∃ t, step (stateWith Res.empty []) = .next t) ∧ (∃ t, step (stateWith Res.empty [.reset]) = .next t) ∧
    (∃ t, step (stateWith Res.empty [.issue (encode (.mulu .w8 1#64 1#64))]) = .next t) :=
  ⟨⟨_, rfl⟩, ⟨_, rfl⟩, ⟨_, rfl⟩⟩

theorem witness_RequestsArePerformedInOrder :
    ∃ t, step (stateWith Res.empty [.issue (encode (.mulu .w8 1#64 1#64)), .readWidth]) = .next t := ⟨_, rfl⟩

theorem witness_ExactlyAllowedRequestsComplete :
    (stateWith ⟨some .w8, some 1#64, none⟩ [.readLo .w8]).pending = .readLo .w8 :: [] ∧
    (Event.readLo .w8).allowed ⟨some .w8, some 1#64, none⟩ = false ∧
    (Event.readHi .w8).allowed ⟨some .w8, some 1#64, none⟩ = true := by decide

theorem witness_RunReturnsEachResultInOrder :
    (∀ i ∈ [Instr.mulu .w8 0xFF#64 0#64, Instr.mulhs .w64 1#64 1#64], i.wellFormed = true) ∧
    (stateWith Res.empty (issues [Instr.mulu .w8 0xFF#64 0#64, Instr.mulhs .w64 1#64 1#64] ++ [.readWidth])).pending =
      issues [Instr.mulu .w8 0xFF#64 0#64, Instr.mulhs .w64 1#64 1#64] ++ [.readWidth] := by decide

theorem witness_RunReturnsEachResultInOrder_reserved :
    decode ⟨0x03#8, 0#64, 0#64⟩ = .error .reservedCommand ∧
    (stateWith Res.empty (issues [Instr.mulu .w8 1#64 1#64] ++ [.issue ⟨0x03#8, 0#64, 0#64⟩])).pending =
      issues [Instr.mulu .w8 1#64 1#64] ++ .issue ⟨0x03#8, 0#64, 0#64⟩ :: [] ∧
    [Instr.mulu .w8 1#64 1#64].length < 2 := ⟨rfl, rfl, by decide⟩

/-- Consumer 0 issues the same operation in both merged sequences, before and after consumer 1's. -/
theorem witness_ConsumersDoNotDisturbEachOther :
    let a := [(0, Instr.mulu .w8 2#64 3#64), (1, Instr.muls .w16 1#64 1#64)]
    let b := [(1, Instr.mulhu .w64 7#64 7#64), (0, Instr.mulu .w8 2#64 3#64)]
    let s := stateWith Res.empty (issues (a.map Prod.snd))
    let u := stateWith ⟨some .w8, some 1#64, none⟩ (issues (b.map Prod.snd))
    (∀ p ∈ a, p.2.wellFormed = true) ∧ (∀ p ∈ b, p.2.wellFormed = true) ∧
    (a.filter fun p => p.1 == 0) = (b.filter fun p => p.1 == 0) ∧
    s.pending = issues (a.map Prod.snd) ∧ u.pending = issues (b.map Prod.snd) ∧
    s.returned = [] ∧ u.returned = [] := by decide

theorem witness_DistinctBlocksShareNoState :
    [State.reset, stateWith Res.empty [.issue (encode (.mulu .w8 2#64 3#64))]][1]? =
      some (stateWith Res.empty [.issue (encode (.mulu .w8 2#64 3#64))]) ∧
    (∃ t, step (stateWith Res.empty [.issue (encode (.mulu .w8 2#64 3#64))]) = .next t) ∧
    (∃ f, step (stateWith Res.empty [.readWidth]) = .fault f) ∧
    (∃ r, step (stateWith Res.empty [.issue ⟨0x03#8, 0#64, 0#64⟩]) = .refused r) :=
  ⟨rfl, ⟨_, rfl⟩, ⟨_, rfl⟩, ⟨_, rfl⟩⟩

/-- Two limbs of a full product, and the one limb of a high word used twice. -/
theorem witness_ReadValuesMayBeOperands :
    (stateWith ⟨some .w8, some 0xFC#64, some 0x04#64⟩ []).res.w = some .w8 ∧
    (stateWith ⟨some .w8, some 0xFC#64, some 0x04#64⟩ []).res.hi = some (Width.w8.word 0xFC#8) ∧
    (stateWith ⟨some .w8, some 0xFC#64, some 0x04#64⟩ []).res.lo = some (Width.w8.word 0x04#8) ∧
    (stateWith ⟨some .w64, some 0xFFFFFFFFFFFFFFFF#64, none⟩ []).res.w = some .w64 ∧
    (stateWith ⟨some .w64, some 0xFFFFFFFFFFFFFFFF#64, none⟩ []).res.hi =
      some (Width.w64.word 0xFFFFFFFFFFFFFFFF#64) := by decide

theorem witness_AssemblerAcceptsLiteralsInRange : InRange .w8 (-128) ∧ InRange .w8 255 ∧ ¬ InRange .w8 256 := by
  unfold InRange; decide

theorem witness_AssembledLineIsItsOperation :
    ['M', 'U', 'L', 'H', 'S', 'U'].map Char.toLower = mnemonicText (.mulhsu .w8 0#64 0#64) ∧
    Spells ['-', '1', '2', '8'] (-128) ∧ Spells ['2', '5', '4'] 254 ∧
    InRange .w8 (-128) ∧ InRange .w8 254 ∧ ¬ InRange .w8 (-129) := by
  refine ⟨by decide, .inr (.inl (by decide)), .inl (by decide), ?_⟩
  unfold InRange
  decide

/-- Hexadecimal literals in upper case, as the spec writes them, in lower case, and with leading zeros. -/
theorem witness_AssembledLineIsItsOperation_hexadecimal :
    Spells ['0', 'x', 'B', 'E', 'E', 'F'] 0xBEEF ∧ Spells ['0', 'x', 'f', 'f'] 255 ∧
    Spells ['0', 'x', '0', '1'] 1 :=
  ⟨.inr (.inr ⟨by decide, 0, _, rfl, by decide⟩), .inr (.inr ⟨by decide, 0, _, rfl, by decide⟩),
    .inr (.inr ⟨by decide, 1, _, rfl, by decide⟩)⟩

end Sys2Proof.Tests
end

/-! ### Proofs of 00_scope.md: the step -/

namespace Sys2Proof.Machine

/-- An issued transaction that decodes is performed. -/
theorem performIssue_of_decode {t : Transaction} {i : Instr} (h : decode t = .ok i) (s : State) :
    performIssue t s = exec i s := by
  simp [performIssue, h]

/-- A step whose oldest request issues an operation performs it on the state without that request. -/
theorem step_of_issue {s : State} {t : Transaction} {i : Instr} {rest : List Event}
    (hp : s.pending = .issue t :: rest) (hd : decode t = .ok i) :
    step s = exec i { s with pending := rest } :=
  (step_of_pending hp).trans (performIssue_of_decode hd _)

/-- Placing a request and taking it off again leaves the state as it was, so the step after placing
an operation is that operation on the state itself. -/
theorem step_issueNext {t : Transaction} {i : Instr} (hd : decode t = .ok i) (s : State) :
    step (issueNext s t) = exec i s :=
  step_of_issue (issueNext_pending s t) hd

end Sys2Proof.Machine

namespace Sys2Proof

/-- A table word reads as an operation exactly when its transaction decodes to it. -/
theorem decodeTableWord_eq_some {nbits w : Nat} {i : Instr} :
    decodeTableWord nbits w = some i ↔ decode (tableTransaction nbits w) = .ok i := by
  cases h : decode (tableTransaction nbits w) <;> simp [decodeTableWord, h]

/-- Settles O7: the oldest request is performed, and an issue that decodes is its operation. -/
theorem stepRunsTheDecodedInstruction : Obligations.StepRunsTheDecodedInstruction :=
  fun _ _ _ _ hp hd => Machine.step_of_issue hp hd

/-- Settles O8: the table word's transaction decodes to the operation and is the next request. -/
theorem placedTableWordRunsItsInstruction : Obligations.PlacedTableWordRunsItsInstruction :=
  fun s _ _ _ h => Machine.step_issueNext (decodeTableWord_eq_some.mp h) s

end Sys2Proof

/-! ### Wide values as 2n-bit values -/

namespace Sys2Proof

/-- Every operand width is positive. -/
theorem Width.bits_pos (w : Width) : 0 < w.bits := by cases w <;> decide

/-- Every operand splits into two limbs of half its width (R46). -/
theorem Width.half_add_half (w : Width) : w.bits / 2 + w.bits / 2 = w.bits := by cases w <;> decide

section
variable {n : Nat}

/-- The concatenated limbs hold the unsigned reading (R6). -/
@[simp] theorem Wide.toBits_toNat (p : Wide n) : p.toBits.toNat = p.uint := by
  rw [Wide.toBits, BitVec.toNat_append, ← Nat.shiftLeft_add_eq_or_of_lt p.lo.isLt, Nat.shiftLeft_eq, Wide.uint]

/-- The high half of the concatenation is the high limb. -/
@[simp] theorem Wide.toBits_high (p : Wide n) : p.toBits.extractLsb' n n = p.hi :=
  BitVec.extractLsb'_append_eq_left

/-- The low half of the concatenation is the low limb. -/
@[simp] theorem Wide.toBits_low (p : Wide n) : p.toBits.extractLsb' 0 n = p.lo :=
  BitVec.extractLsb'_append_eq_right

/-- A wide value is determined by its concatenation (R15). -/
theorem Wide.toBits_injective {p q : Wide n} (h : p.toBits = q.toBits) : p = q := by
  have hhi : p.hi = q.hi := by rw [← p.toBits_high, h, q.toBits_high]
  have hlo : p.lo = q.lo := by rw [← p.toBits_low, h, q.toBits_low]
  cases p; cases q
  exact congrArg₂ Wide.mk hhi hlo

/-- Splitting bits_2n(z) into limbs loses nothing. -/
@[simp] theorem Wide.ofInt_toBits (z : Int) : (Wide.ofInt n z).toBits = BitVec.ofInt (n + n) z :=
  BitVec.extractLsb'_append_extractLsb'

/-- A wide value is the split of z when its concatenation is bits_2n(z). -/
theorem Wide.eq_ofInt {p : Wide n} {z : Int} (h : p.toBits = BitVec.ofInt (n + n) z) : p = Wide.ofInt n z :=
  Wide.toBits_injective (by simpa using h)

/-- The high word of a product is the high limb of the full product (R68). -/
theorem highProduct_eq_fullProduct_hi (sg : Signedness) (x y : BitVec n) :
    highProduct sg x y = (fullProduct sg x y).hi :=
  BitVec.setWidth_ushiftRight_eq_extractLsb

end

/-! ### One-bit signals -/

section
variable {n : Nat}

/-- A one-bit signal in n > 0 bits is the number 0 or 1. -/
theorem bit_toNat (h0 : 0 < n) (b : Bool) : (bit b : BitVec n).toNat = b.toNat := by
  cases b <;> simp [bit, Nat.mod_eq_of_lt, Nat.one_lt_two_pow h0.ne']

/-- An n-bit sum and its carry are the exact sum (R48, R49). -/
theorem add_toNat_add_carryOut (a b : BitVec n) :
    (a + b).toNat + (carryOut a b).toNat * 2 ^ n = a.toNat + b.toNat := by
  have ha := a.isLt
  have hb := b.isLt
  rw [BitVec.toNat_add]
  by_cases hc : 2 ^ n ≤ a.toNat + b.toNat
  · rw [Nat.mod_eq_sub_mod hc, Nat.mod_eq_of_lt (by omega)]
    simp [carryOut, hc]
  · rw [Nat.mod_eq_of_lt (by omega)]
    simp [carryOut, hc]

/-- A sum is below an addend exactly when the addition carried (R48, R49, I4). -/
theorem carryByComparison_add (a b : BitVec n) : carryByComparison (a + b) a = carryOut a b := by
  have hb := b.isLt
  have hsum := add_toNat_add_carryOut a b
  cases hc : carryOut a b
  · have hge : a.toNat ≤ (a + b).toNat := by rw [hc, Bool.toNat_false] at hsum; omega
    simpa only [carryByComparison, decide_eq_false_iff_not, not_lt] using hge
  · have hlt : (a + b).toNat < a.toNat := by rw [hc, Bool.toNat_true] at hsum; omega
    simpa only [carryByComparison, decide_eq_true_eq] using hlt

/-- The borrow of a decrement is the carry of the increment that undoes it (R57). -/
theorem borrowOut_sub_one_eq_carryOut (lo : BitVec n) : borrowOut (lo - 1#n) lo = carryOut (lo - 1#n) 1#n := by
  rw [← carryByComparison_add, BitVec.sub_add_cancel]
  rfl

/-- The decrement borrows exactly when the low limb is zero (R57, R69). -/
theorem borrowOut_sub_one (h0 : 0 < n) (lo : BitVec n) : borrowOut (lo - 1#n) lo = borrowByZero lo := by
  have hlt := (lo - 1#n).isLt
  have hsum := add_toNat_add_carryOut (lo - 1#n) 1#n
  rw [BitVec.sub_add_cancel, BitVec.toNat_one h0, ← borrowOut_sub_one_eq_carryOut] at hsum
  have hzero : lo = 0#n ↔ lo.toNat = 0 := by simp [BitVec.toNat_eq]
  cases hc : borrowOut (lo - 1#n) lo
  · have hpos : lo.toNat ≠ 0 := by rw [hc, Bool.toNat_false] at hsum; omega
    simpa [borrowByZero, hzero] using hpos
  · have hwrap : lo.toNat = 0 := by rw [hc, Bool.toNat_true] at hsum; omega
    simpa [borrowByZero, hzero] using hwrap

end

/-! ### The kernel (R46 to R51) -/

section
variable {n : Nat}

@[simp] theorem lowLimb_toNat (v : BitVec n) : (lowLimb v).toNat = v.toNat % 2 ^ (n / 2) := by
  simp [lowLimb]

variable (hn : n / 2 + n / 2 = n)
include hn

/-- The square of a limb's range is the operand's range. -/
theorem two_pow_half_mul_self : 2 ^ (n / 2) * 2 ^ (n / 2) = 2 ^ n := by
  rw [← pow_add, hn]

theorem highLimb_toNat (v : BitVec n) : (highLimb v).toNat = v.toNat / 2 ^ (n / 2) := by
  have h : v.toNat / 2 ^ (n / 2) < 2 ^ (n / 2) :=
    Nat.div_lt_of_lt_mul (by rw [two_pow_half_mul_self hn]; exact v.isLt)
  simp [highLimb, Nat.shiftRight_eq_div_pow, Nat.mod_eq_of_lt h]

/-- The limbs split the operand (R46). -/
theorem highLimb_mul_add_lowLimb (v : BitVec n) :
    (highLimb v).toNat * 2 ^ (n / 2) + (lowLimb v).toNat = v.toNat := by
  rw [highLimb_toNat hn, lowLimb_toNat, Nat.div_add_mod']

/-- A product of two limbs fits n bits (R47). -/
theorem crossProduct_toNat (a b : BitVec (n / 2)) : (crossProduct a b : BitVec n).toNat = a.toNat * b.toNat := by
  have h : a.toNat * b.toNat < 2 ^ n := by
    rw [← two_pow_half_mul_self hn]
    exact Nat.mul_lt_mul'' a.isLt b.isLt
  simp [crossProduct, Nat.mod_eq_of_lt h]

/-- Shifting left by half the width keeps the low limb. -/
theorem shiftLeft_half_toNat (z : BitVec n) :
    (z <<< (n / 2)).toNat = z.toNat % 2 ^ (n / 2) * 2 ^ (n / 2) := by
  rw [BitVec.toNat_shiftLeft, Nat.shiftLeft_eq, ← two_pow_half_mul_self hn, Nat.mul_mod_mul_right]

/-- The exact product as the sum of the four cross products, each at its place (R47). -/
theorem crossProducts_sum (x y : BitVec n) :
    (kernelSignals x y).z3.toNat * 2 ^ n +
      ((kernelSignals x y).z1.toNat + (kernelSignals x y).z2.toNat) * 2 ^ (n / 2) +
      (kernelSignals x y).z0.toNat = x.toNat * y.toNat := by
  simp only [kernelSignals, crossProduct_toNat hn]
  rw [← highLimb_mul_add_lowLimb hn x, ← highLimb_mul_add_lowLimb hn y, ← two_pow_half_mul_self hn]
  ring

variable (h0 : 0 < n)
include h0

/-- The carry c1 enters the high half at bit h (R50). -/
theorem bit_shiftLeft_half_toNat (b : Bool) : ((bit b : BitVec n) <<< (n / 2)).toNat = b.toNat * 2 ^ (n / 2) := by
  have hb : b.toNat < 2 ^ (n / 2) := lt_of_le_of_lt b.toNat_le (Nat.one_lt_two_pow (by omega))
  rw [shiftLeft_half_toNat hn, bit_toNat h0, Nat.mod_eq_of_lt hb]

/-- The unwrapped high sum and the low half are the exact product: z4 and the sum of z0 with its low half,
taken with their carries, lose nothing (R48 to R50). -/
theorem kernelHighSum_mul_add_lo (x y : BitVec n) :
    kernelHighSum x y * 2 ^ n + (kernel x y).lo.toNat = x.toNat * y.toNat := by
  have hsum := crossProducts_sum hn x y
  set k := kernelSignals x y with hk
  have hz4 : k.z4.toNat + k.c1.toNat * 2 ^ n = k.z1.toNat + k.z2.toNat := add_toNat_add_carryOut _ _
  have hlo : k.lo.toNat + k.c2.toNat * 2 ^ n = k.z0.toNat + k.z4.toNat % 2 ^ (n / 2) * 2 ^ (n / 2) := by
    rw [← shiftLeft_half_toNat hn]
    exact add_toNat_add_carryOut _ _
  have hsplit : k.z4.toNat / 2 ^ (n / 2) * 2 ^ (n / 2) + k.z4.toNat % 2 ^ (n / 2) = k.z4.toNat :=
    Nat.div_add_mod' ..
  have hhigh : kernelHighSum x y =
      k.z3.toNat + k.z4.toNat / 2 ^ (n / 2) + k.c1.toNat * 2 ^ (n / 2) + k.c2.toNat := by
    simp only [kernelHighSum, ← hk, bit_shiftLeft_half_toNat hn h0, bit_toNat h0, BitVec.toNat_ushiftRight,
      Nat.shiftRight_eq_div_pow]
  rw [hhigh, ← hsum, show (kernel x y).lo = k.lo from rfl, ← hz4]
  rw [← two_pow_half_mul_self hn] at hlo ⊢
  linear_combination hlo + 2 ^ (n / 2) * hsplit

/-- The high sum of R50 does not wrap (R51). -/
theorem kernelHighSum_lt (x y : BitVec n) : kernelHighSum x y < 2 ^ n := by
  have hprod : x.toNat * y.toNat < 2 ^ n * 2 ^ n := Nat.mul_lt_mul'' x.isLt y.isLt
  have hsum := kernelHighSum_mul_add_lo hn h0 x y
  exact Nat.lt_of_mul_lt_mul_right (a := 2 ^ n) (by omega)

/-- So the high half is that sum (R50, R51). -/
theorem kernel_hi_toNat (x y : BitVec n) : (kernel x y).hi.toNat = kernelHighSum x y := by
  have hlt := kernelHighSum_lt hn h0 x y
  rw [← Nat.mod_eq_of_lt hlt]
  simp only [kernel, kernelSignals, assembleHalves, kernelHighSum, BitVec.toNat_add, Nat.mod_add_mod]

/-- The kernel is exact (R51). -/
theorem kernel_uint (x y : BitVec n) : (kernel x y).uint = x.toNat * y.toNat := by
  rw [Wide.uint, kernel_hi_toNat hn h0, kernelHighSum_mul_add_lo hn h0]

/-- The kernel's concatenation is bits_2n of the exact product. -/
theorem kernel_toBits (x y : BitVec n) :
    (kernel x y).toBits = BitVec.ofInt (n + n) ((x.toNat : Int) * (y.toNat : Int)) := by
  rw [← Int.natCast_mul, BitVec.ofInt_natCast, ← kernel_uint hn h0, ← Wide.toBits_toNat, BitVec.ofNat_toNat,
    BitVec.setWidth_eq]

end

/-! ### The sign correction (R54 to R60) -/

section
variable {n : Nat}

/-- The sign of a factor or a result: −1 where its sign bit is set (R54, R56). -/
def signFactor (b : Bool) : Int := if b then -1 else 1

/-- The result sign of R60 is the product of the operands' signs. -/
theorem signFactor_xor (a b : Bool) : signFactor (xor a b) = signFactor a * signFactor b := by
  revert a b; decide

/-- A signed operand is its sign times its magnitude, the most negative value among them (R54, R55). -/
theorem toInt_eq_signFactor_mul_magnitude (v : BitVec n) :
    v.toInt = signFactor (signBit v) * ((magnitude v).toNat : Int) := by
  have hs : signBit v = v.msb := (BitVec.msb_eq_getLsbD_last v).symm
  cases hm : v.msb
  · simp [signFactor, magnitude, hs, hm, BitVec.toInt_eq_toNat_of_msb hm]
  · simp [signFactor, magnitude, hs, hm, BitVec.toInt_eq_neg_toNat_neg_of_msb_true hm]

variable (h0 : 0 < n)
include h0

/-- Incrementing the low limb and adding its carry to the high limb increments the 2n-bit value. -/
theorem increment_toBits (p : Wide n) :
    (Wide.mk (p.hi + bit (carryOut p.lo 1#n)) (p.lo + 1#n)).toBits = p.toBits + 1#(n + n) := by
  have hlo := add_toNat_add_carryOut p.lo 1#n
  have hlt := (p.lo + 1#n).isLt
  rw [BitVec.toNat_one h0] at hlo
  have hsum : p.uint + 1 = (p.lo + 1#n).toNat + 2 ^ n * (p.hi.toNat + (carryOut p.lo 1#n).toNat) := by
    rw [Wide.uint]
    linear_combination hlo.symm
  have hmod : (p.uint + 1) % 2 ^ (n + n) =
      (p.lo + 1#n).toNat + 2 ^ n * ((p.hi.toNat + (carryOut p.lo 1#n).toNat) % 2 ^ n) := by
    rw [hsum, pow_add, Nat.mod_mul, Nat.add_mul_mod_self_left, Nat.mod_eq_of_lt hlt,
      Nat.add_mul_div_left _ _ (by positivity), Nat.div_eq_of_lt hlt, Nat.zero_add]
  apply BitVec.eq_of_toNat_eq
  rw [BitVec.toNat_add, Wide.toBits_toNat, Wide.toBits_toNat, BitVec.toNat_one (by omega), hmod, Wide.uint,
    BitVec.toNat_add, bit_toNat h0, Nat.mul_comm, Nat.add_comm]

/-- Decrementing the low limb and taking its borrow from the high limb decrements the 2n-bit value (R57,
R58). -/
theorem decrement_toBits (p : Wide n) :
    (negationSignals p).hi2 ++ (negationSignals p).lo2 = p.toBits - 1#(n + n) := by
  have hinc := increment_toBits h0 ⟨(negationSignals p).hi2, (negationSignals p).lo2⟩
  simp only [negationSignals, ← borrowOut_sub_one_eq_carryOut, BitVec.sub_add_cancel] at hinc
  exact BitVec.eq_sub_iff_add_eq.mpr hinc.symm

/-- NEG2 negates the 2n-bit value (R57, R58). -/
theorem negateWide_toBits (p : Wide n) : (negateWide p).toBits = -p.toBits := by
  rw [Wide.toBits, negateWide, ← BitVec.not_append, decrement_toBits h0, BitVec.not_sub_one_eq_not_add_one,
    ← BitVec.neg_eq_not_add]

/-- The correction multiplies the 2n-bit value by the result sign (R56). -/
theorem correctSign_toBits {p : Wide n} {z : Int} (rs : Bool) (hp : p.toBits = BitVec.ofInt (n + n) z) :
    (correctSign rs p).toBits = BitVec.ofInt (n + n) (signFactor rs * z) := by
  cases rs
  · simp [correctSign, signFactor, hp]
  · simp [correctSign, signFactor, negateWide_toBits h0, hp, BitVec.ofInt_neg]

/-- The high-word correction is the high limb of the full one (R69). -/
theorem correctHigh_eq_correctSign_hi (rs : Bool) (p : Wide n) : correctHigh rs p = (correctSign rs p).hi := by
  cases rs
  · rfl
  · simp [correctHigh, correctSign, negateWide, negationSignals, borrowOut_sub_one h0]

end

/-! ### Each datapath against its contract (R8) -/

section
variable {n : Nat} (hn : n / 2 + n / 2 = n) (h0 : 0 < n) (x y : BitVec n)
include hn h0

theorem kernel_eq_fullProduct : kernel x y = fullProduct .uu x y :=
  Wide.eq_ofInt (kernel_toBits hn h0 x y)

theorem signedPath_eq_fullProduct : signedPath x y = fullProduct .ss x y := by
  have hsign : exactProduct .ss x y = signFactor (xor (signBit x) (signBit y)) *
      ((magnitude x).toNat * (magnitude y).toNat) := by
    simp only [exactProduct, readAs, Signedness.xSigned, Signedness.ySigned, if_true, signFactor_xor,
      toInt_eq_signFactor_mul_magnitude]
    ring
  apply Wide.eq_ofInt
  rw [hsign]
  exact correctSign_toBits h0 _ (kernel_toBits hn h0 _ _)

theorem signedUnsignedPath_eq_fullProduct : signedUnsignedPath x y = fullProduct .su x y := by
  have hsign : exactProduct .su x y = signFactor (signBit x) * ((magnitude x).toNat * y.toNat) := by
    simp [exactProduct, readAs, Signedness.xSigned, Signedness.ySigned, toInt_eq_signFactor_mul_magnitude,
      mul_assoc]
  apply Wide.eq_ofInt
  rw [hsign]
  exact correctSign_toBits h0 _ (kernel_toBits hn h0 _ _)

theorem unsignedHighPath_eq_highProduct : unsignedHighPath x y = highProduct .uu x y := by
  rw [highProduct_eq_fullProduct_hi, ← kernel_eq_fullProduct hn h0, unsignedHighPath]

theorem signedHighPath_eq_highProduct : signedHighPath x y = highProduct .ss x y := by
  rw [highProduct_eq_fullProduct_hi, ← signedPath_eq_fullProduct hn h0, signedPath,
    ← correctHigh_eq_correctSign_hi h0, signedHighPath]

theorem signedUnsignedHighPath_eq_highProduct : signedUnsignedHighPath x y = highProduct .su x y := by
  rw [highProduct_eq_fullProduct_hi, ← signedUnsignedPath_eq_fullProduct hn h0, signedUnsignedPath,
    ← correctHigh_eq_correctSign_hi h0, signedUnsignedHighPath]

end

/-- Settles O25: the kernel is exact on magnitudes, the correction multiplies by the result sign, and the
high paths are the high limbs of the full ones; every width is positive and even. -/
theorem datapathsAgreeWithTheContract : Obligations.DatapathsAgreeWithTheContract := fun w X Y =>
  have hn := w.half_add_half
  have h0 := w.bits_pos
  ⟨kernel_eq_fullProduct hn h0 X Y, signedPath_eq_fullProduct hn h0 X Y,
    signedUnsignedPath_eq_fullProduct hn h0 X Y, unsignedHighPath_eq_highProduct hn h0 X Y,
    signedHighPath_eq_highProduct hn h0 X Y, signedUnsignedHighPath_eq_highProduct hn h0 X Y⟩

end Sys2Proof

/-! ### Proofs of 10_state.md: RES, its reads and the invariant -/

namespace Sys2Proof.Machine

/-- Where RES is as the last returned value leaves it, only its domain is left to ask for (R11). -/
theorem State.inv_after_return {s : State} {v : Returned} {before : List Returned}
    (hres : s.res = v.leaves) (hret : s.returned = before ++ [v]) : s.Inv ↔ v.leaves.inDomain = true := by
  simp [State.Inv, State.holdsLastProduct, hres, hret]

/-- The invariant speaks of RES and of the returned values only. -/
theorem State.Inv.congr {s t : State} (h : s.Inv) (hres : t.res = s.res) (hret : t.returned = s.returned) :
    t.Inv := by
  simpa only [State.Inv, State.holdsLastProduct, hres, hret] using h

/-- A RES without a value meets the invariant, whatever has been returned (R22). -/
theorem State.inv_of_res_empty {s : State} (h : s.res = Res.empty) : s.Inv := by
  have hdom : Res.empty.inDomain = true := rfl
  simp [State.Inv, State.holdsLastProduct, h, hdom]

/-- An operation returns one value, whose limbs fit its width, and leaves RES as that value says; the
state it meets has no part in the value (R12, R13, R93). -/
theorem exec_returns (i : Instr) : ∃ v : Returned, v.leaves.inDomain = true ∧
    ∀ s, exec i s = .next { s with res := v.leaves, returned := s.returned ++ [v] } := by
  obtain ⟨-, p, hx⟩ | ⟨-, h, hx⟩ := exec_completes i
  · exact ⟨.full i.width (i.width.word p.hi) (i.width.word p.lo), by simp [Returned.leaves, Res.inDomain], hx⟩
  · exact ⟨.high i.width (i.width.word h), by simp [Returned.leaves, Res.inDomain], hx⟩

/-- What a step does to RES and to the returned values: nothing, or a reset empties RES, or an operation
returns a value that fits its width and replaces RES by it (R16). -/
theorem step_res_cases {s t : State} (h : step s = .next t) :
    (t.res = s.res ∧ t.returned = s.returned) ∨
    (∃ rest, s.pending = .reset :: rest ∧ t.res = Res.empty ∧ t.returned = s.returned) ∨
    (∃ tr i v rest, s.pending = .issue tr :: rest ∧ decode tr = .ok i ∧ v.leaves.inDomain = true ∧
      t.res = v.leaves ∧ t.returned = s.returned ++ [v]) := by
  cases hp : s.pending with
  | nil =>
    have ht : s = t := by simpa [step, hp] using h
    exact .inl ⟨by rw [ht], by rw [ht]⟩
  | cons e rest =>
    rw [step_of_pending hp] at h
    obtain ⟨tr, i, rfl, hd, hx⟩ | ⟨v, -, rfl⟩ | ⟨rfl, rfl⟩ := perform_next_cases h
    · obtain ⟨v, hv, hexec⟩ := exec_returns i
      rw [hexec] at hx
      cases hx
      exact .inr (.inr ⟨tr, i, v, rest, rfl, hd, hv, rfl, rfl⟩)
    · exact .inl ⟨rfl, rfl⟩
    · exact .inr (.inl ⟨rest, rfl, rfl, rfl⟩)

/-- A step that reads a limb cell at width w, by the cell and the width tag it meets (R14). -/
theorem step_reads_limb {s u : State} {tag : Option Width} {cell : Option Word} {empty : Fault} {w : Width}
    {kind : Word → ReadValue} (h : step s = u.logRead kind (readCell tag cell empty w)) :
    (cell = none → step s = .fault empty) ∧
    (∀ v, cell = some v → tag ≠ some w → step s = .refused .widthMismatch) ∧
    (∀ v, cell = some v → tag = some w → step s = .next { u with reads := u.reads ++ [kind v] }) := by
  refine ⟨fun hc => ?_, fun v hc ht => ?_, fun v hc ht => ?_⟩
  · rw [h, readCell_fault.mpr ⟨hc, rfl⟩]
    rfl
  · rw [h, readCell_refused.mpr ⟨by simp [hc], ht, rfl⟩]
    rfl
  · exact h.trans (logRead_next.mpr ⟨v, readCell_next.mpr ⟨hc, ht⟩, rfl⟩)

/-- A read goes on exactly when it gives a value. -/
theorem isNext_logRead {α : Type} {s : State} {kind : α → ReadValue} {o : Host.Outcome α Fault Refusal} :
    IsNext (s.logRead kind o) ↔ ∃ v, o = .next v := by
  simp only [IsNext, logRead_next]
  exact ⟨fun ⟨_, v, hv, _⟩ => ⟨v, hv⟩, fun ⟨v, hv⟩ => ⟨_, v, hv, rfl⟩⟩

/-- A read of a limb cell goes on exactly when the cell holds a value at the width asked for (R14). -/
theorem isNext_logRead_readCell {s : State} {kind : Word → ReadValue} {tag : Option Width} {cell : Option Word}
    {empty : Fault} {w : Width} :
    IsNext (s.logRead kind (readCell tag cell empty w)) ↔ (cell.isSome && decide (tag = some w)) = true := by
  simp [isNext_logRead, readCell_next, Option.isSome_iff_exists]

/-- An issued transaction goes on exactly when it decodes, since every operation completes (R41, R76). -/
theorem isNext_performIssue {t : Transaction} {s : State} :
    IsNext (performIssue t s) ↔ transactionAllowed t = true := by
  cases hd : decode t with
  | ok i =>
    obtain ⟨v, -, hexec⟩ := exec_returns i
    simp [IsNext, performIssue, transactionAllowed, hd, hexec]
  | error e => simp [IsNext, performIssue, transactionAllowed, hd]

/-- A request goes on exactly when software may make it. -/
theorem isNext_perform {e : Event} {s : State} : IsNext (perform e s) ↔ e.allowed s.res = true := by
  cases e with
  | issue t => exact isNext_performIssue
  | readWidth => simp [perform, isNext_logRead, readWidth_next, Event.allowed, Option.isSome_iff_exists]
  | readHi w => exact isNext_logRead_readCell
  | readLo w => exact isNext_logRead_readCell
  | readView =>
    simp only [perform, isNext_logRead, readView_next, Event.allowed]
    obtain ⟨w, hi, lo⟩ := s.res
    simp [Option.isSome_iff_exists, and_assoc]
  | reset => simp [perform, IsNext, Event.allowed]

/-- A full RES holds the wide value of its limbs (R11). -/
@[simp] theorem Res.wide_word (w : Width) (hi lo : BitVec w.bits) :
    (Res.mk (some w) (some (w.word hi)) (some (w.word lo))).wide = some ⟨w, hi, lo⟩ := by
  simp [Res.wide]

end Sys2Proof.Machine

namespace Sys2Proof
open Machine

/-- Settles O45: an operation leaves RES as the value it returned last, a reset leaves it empty, and any
other step leaves both alone. -/
theorem everyStepKeepsTheInvariant : Obligations.EveryStepKeepsTheInvariant := by
  intro s t hs h
  obtain ⟨hres, hret⟩ | ⟨-, -, hres, -⟩ | ⟨-, -, v, -, -, -, hv, hres, hret⟩ := step_res_cases h
  · exact hs.congr hres hret
  · exact State.inv_of_res_empty hres
  · exact (State.inv_after_return hres hret).mpr hv

/-- Settles O18: every operation completes with the value it returns in RES. -/
theorem operationsChangeOnlyResAndReturn : Obligations.OperationsChangeOnlyResAndReturn := by
  intro i s t h
  obtain ⟨v, -, hexec⟩ := exec_returns i
  rw [hexec] at h
  cases h
  exact ⟨rfl, rfl, v, rfl, rfl⟩

/-- Settles O35: each read is the step's own, and the limb reads are one read of a cell. -/
theorem readsOfResCells : Obligations.ReadsOfResCells := by
  intro s rest w
  refine ⟨fun hp => ?width, fun hp => ?hi, fun hp => ?lo⟩
  case width =>
    have hstep := step_of_pending hp
    exact ⟨fun hw => by simp [hstep, perform, Res.readWidth, State.logRead, hw],
      fun v hw => hstep.trans (logRead_next.mpr ⟨v, readWidth_next.mpr hw, rfl⟩)⟩
  case hi | lo =>
    obtain ⟨hempty, hother, hgives⟩ := step_reads_limb (step_of_pending hp)
    exact ⟨fun hc _ => hempty hc, hother, fun hc _ t => by simp [hempty hc], hgives⟩

/-- Settles O44: what an operation leaves fits its width, and a reset leaves no value. -/
theorem everyStepKeepsResInItsDomain : Obligations.EveryStepKeepsResInItsDomain := by
  intro s t hs h
  obtain ⟨hres, -⟩ | ⟨-, -, hres, -⟩ | ⟨-, -, v, -, -, -, hv, hres, -⟩ := step_res_cases h
  · rwa [hres]
  · rw [hres]
    rfl
  · rwa [hres]

/-- Settles O46: the three ways of a step, without the domain of the value. -/
theorem onlyCompletedOperationsWriteRes : Obligations.OnlyCompletedOperationsWriteRes := fun _ _ h =>
  (step_res_cases h).imp_right <| Or.imp_right
    fun ⟨tr, i, v, rest, hp, hd, _, hres, hret⟩ => ⟨tr, i, v, rest, hp, hd, hres, hret⟩

/-- Settles O48: the step is the oldest request, which goes on exactly when it is allowed. -/
theorem exactlyAllowedRequestsComplete : Obligations.ExactlyAllowedRequestsComplete := by
  intro s e rest hp
  rw [step_of_pending hp]
  exact (isNext_perform (s := { s with pending := rest })).symm

/-- Settles O34: a full RES holds the wide value of its limbs, and a record is its fields. -/
theorem readingsOfResStandForItsValue : Obligations.ReadingsOfResStandForItsValue := by
  intro w hi lo
  refine ⟨?_, ?_, fun v hi' lo' => ?_⟩
  · simp [Res.uint, Wide.uint]
  · simp [Res.sint, Wide.sint, Wide.toBits]
  · simp

/-- Settles O42: every cell is empty at reset, so each read faults, and a reset request empties RES. -/
theorem resetLeavesNoValueInRes : Obligations.ResetLeavesNoValueInRes :=
  ⟨rfl, fun _ => ⟨rfl, rfl, rfl⟩, fun _ _ hp => step_of_pending hp⟩

/-- Settles O43: RES is empty at reset. -/
theorem resetStateMeetsTheInvariant : Obligations.ResetStateMeetsTheInvariant :=
  State.inv_of_res_empty State.reset_res

end Sys2Proof

/-! ### Bytes of a number -/

namespace Sys2Proof

/-- Every operand width is a whole number of bytes. -/
theorem Width.eight_mul_bytes (w : Width) : 8 * (w.bits / 8) = w.bits := by cases w <;> decide

/-- 256 to the bytes of a word is 2 to its bits. -/
theorem Width.pow_bytes (w : Width) : 256 ^ (w.bits / 8) = 2 ^ w.bits := by
  rw [show 256 = 2 ^ 8 from rfl, ← pow_mul, w.eight_mul_bytes]

/-- The byte view of a width w has the bytes of two w-bit words. -/
theorem Width.two_mul_bytes (w : Width) : 2 * w.bits / 8 = w.bits / 8 + w.bits / 8 := by cases w <;> decide

/-- The k bytes of v, least significant first: the sequence that the byte view lists under little, and
whose reverse it lists under big (R27, R28). -/
def bytesOf (k v : Nat) : List Byte := (List.range k).map fun i => BitVec.ofNat 8 (v / 2 ^ (8 * i))

@[simp] theorem bytesOf_length (k v : Nat) : (bytesOf k v).length = k := by simp [bytesOf]

/-- The first byte of v is its lowest, and the others are the bytes of v / 256. -/
theorem bytesOf_succ (k v : Nat) : bytesOf (k + 1) v = BitVec.ofNat 8 v :: bytesOf k (v / 256) := by
  have hdiv (i : Nat) : v / 2 ^ (8 * (i + 1)) = v / 256 / 2 ^ (8 * i) := by
    rw [Nat.div_div_eq_div_mul]
    congr 1
    ring
  simp [bytesOf, List.range_succ_eq_map, hdiv]

theorem bytesOf_getElem? {k i : Nat} (v : Nat) (h : i < k) :
    (bytesOf k v)[i]? = some (BitVec.ofNat 8 (v / 2 ^ (8 * i))) := by
  simp [bytesOf, h]

/-- The bytes, most significant first. -/
theorem bytesOf_reverse (k v : Nat) :
    (bytesOf k v).reverse = (List.range k).map fun i => BitVec.ofNat 8 (v / 2 ^ (8 * (k - 1 - i))) := by
  refine List.ext_getElem (by simp) fun i _ _ => ?_
  simp [bytesOf]

theorem bytesOf_reverse_getElem? {k i : Nat} (v : Nat) (h : i < k) :
    (bytesOf k v).reverse[i]? = some (BitVec.ofNat 8 (v / 2 ^ (8 * (k - 1 - i)))) := by
  simp [bytesOf_reverse, h]

/-- Read least significant first, the k bytes of v stand for v modulo 256 ^ k. -/
theorem valueLeastFirst_bytesOf (k v : Nat) : valueLeastFirst (bytesOf k v) = v % 256 ^ k := by
  induction k generalizing v with
  | zero => simp [bytesOf, valueLeastFirst, Nat.mod_one]
  | succ k ih => simp [bytesOf_succ, valueLeastFirst, ih, pow_succ', Nat.mod_mul]

/-- The bytes of a number made of a high part and a k-byte low part: the low part's, then the high
part's. -/
theorem bytesOf_add (k j hi lo : Nat) (hlo : lo < 256 ^ k) :
    bytesOf (k + j) (hi * 256 ^ k + lo) = bytesOf k lo ++ bytesOf j hi := by
  induction k generalizing lo with
  | zero =>
    obtain rfl : lo = 0 := by simpa using hlo
    simp [bytesOf]
  | succ k ih =>
    have hsplit : hi * 256 ^ (k + 1) + lo = 256 * (hi * 256 ^ k) + lo := by ring
    have hlow : BitVec.ofNat 8 (256 * (hi * 256 ^ k) + lo) = BitVec.ofNat 8 lo :=
      BitVec.eq_of_toNat_eq (by simp)
    have hlo' : lo / 256 < 256 ^ k := by rw [pow_succ] at hlo; omega
    rw [hsplit, Nat.add_right_comm, bytesOf_succ, bytesOf_succ, hlow, List.cons_append, ← ih _ hlo']
    congr 3
    omega

/-! ### The byte view -/

/-- A byte of the view is a byte of the number (R27). -/
theorem byteAt_eq_ofNat {m : Nat} (p : BitVec m) (i : Nat) :
    byteAt p i = BitVec.ofNat 8 (p.toNat / 2 ^ (8 * i)) :=
  BitVec.eq_of_toNat_eq (by simp [byteAt, Nat.shiftRight_eq_div_pow])

section
variable {n : Nat} (p : Wide n)

/-- The view under little is the bytes of the value, least significant first (R27). -/
theorem Wide.view_little : Wide.view .little p = bytesOf (2 * n / 8) p.uint := by
  simp [Wide.view, bytesOf, byteAt_eq_ofNat]

/-- The view under big is the view under little reversed (R28). -/
theorem Wide.view_big : Wide.view .big p = (bytesOf (2 * n / 8) p.uint).reverse := by
  simp [Wide.view, bytesOf_reverse, byteAt_eq_ofNat]

end

section
variable (w : Width) (hi lo : BitVec w.bits)

/-- The bytes of a wide value are lo's bytes, then hi's (R27). -/
theorem bytesOf_uint :
    bytesOf (2 * w.bits / 8) (Wide.mk hi lo).uint =
      bytesOf (w.bits / 8) lo.toNat ++ bytesOf (w.bits / 8) hi.toNat := by
  have hlo : lo.toNat < 256 ^ (w.bits / 8) := by rw [w.pow_bytes]; exact lo.isLt
  rw [Wide.uint, w.two_mul_bytes, ← w.pow_bytes, bytesOf_add _ _ _ _ hlo]

/-- Under little, lo's bytes stand first, each limb least significant byte first (R27). -/
theorem view_little_limbs :
    Wide.view .little ⟨hi, lo⟩ = bytesOf (w.bits / 8) lo.toNat ++ bytesOf (w.bits / 8) hi.toNat := by
  rw [Wide.view_little, bytesOf_uint]

/-- Under big, hi's bytes stand first, each limb most significant byte first (R28). -/
theorem view_big_limbs :
    Wide.view .big ⟨hi, lo⟩ =
      (bytesOf (w.bits / 8) hi.toNat).reverse ++ (bytesOf (w.bits / 8) lo.toNat).reverse := by
  rw [Wide.view_big, bytesOf_uint, List.reverse_append]

/-- The bytes of a w-bit word read back as the word, under little as they stand (R29). -/
theorem readBack_little_bytesOf (v : BitVec w.bits) :
    readBack .little (bytesOf (w.bits / 8) v.toNat) = v.toNat := by
  rw [readBack, valueLeastFirst_bytesOf, w.pow_bytes, Nat.mod_eq_of_lt v.isLt]

/-- The bytes of a w-bit word read back as the word, under big when reversed (R29). -/
theorem readBack_big_bytesOf (v : BitVec w.bits) :
    readBack .big (bytesOf (w.bits / 8) v.toNat).reverse = v.toNat := by
  rw [readBack, List.reverse_reverse]
  exact readBack_little_bytesOf w v

/-- The view reads back as the 2w-bit value in its own byte order (R29). -/
theorem readBack_view (o : ByteOrder) : readBack o (Wide.view o ⟨hi, lo⟩) = (Wide.mk hi lo).uint := by
  have hvalue : valueLeastFirst (bytesOf (2 * w.bits / 8) (Wide.mk hi lo).uint) = (Wide.mk hi lo).uint := by
    have hlt : (Wide.mk hi lo).uint < 2 ^ w.bits * 2 ^ w.bits := by
      rw [← Wide.toBits_toNat, ← pow_add]
      exact (Wide.mk hi lo).toBits.isLt
    rw [valueLeastFirst_bytesOf, w.two_mul_bytes, pow_add, w.pow_bytes, Nat.mod_eq_of_lt hlt]
  cases o with
  | little => rw [Wide.view_little]; exact hvalue
  | big => rw [Wide.view_big, readBack, List.reverse_reverse]; exact hvalue

end

namespace Machine

/-- A full RES has the byte view of its limbs (R26). -/
@[simp] theorem Res.readView_word (o : ByteOrder) (w : Width) (hi lo : BitVec w.bits) :
    (Res.mk (some w) (some (w.word hi)) (some (w.word lo))).readView o = .next (Wide.view o ⟨hi, lo⟩) := by
  simp [Res.readView]

/-- A RES without a low limb has no byte view (R29). -/
@[simp] theorem Res.readView_without_lo (o : ByteOrder) (w : Width) (hi : Option Word) :
    (Res.mk (some w) hi none).readView o = .refused .noByteView := by
  cases hi <;> rfl

/-- The product of the worked examples of R27 and R28, 0x06260060, in RES. -/
theorem exec_mulu_example (s : State) :
    exec (.mulu .w16 0x1234#64 0x5678#64) s = .next (s.completeFull .w16 ⟨0x0626#16, 0x0060#16⟩) := by
  have hp : fullProduct .uu (portValue .w16 0x1234#64) (portValue .w16 0x5678#64) = ⟨0x0626#16, 0x0060#16⟩ := by
    decide
  rw [exec_mulu, hp]

end Machine

/-! ### Proofs of 20_memory.md: the byte view -/

open Machine

/-- Settles O38: the view is the bytes of the value, which are lo's and then hi's. -/
theorem byteViewLittle : Obligations.ByteViewLittle := by
  refine ⟨fun w hi lo => ⟨?_, fun i h => ?_, view_little_limbs w hi lo⟩, fun s => ⟨_, exec_mulu_example s, ?_⟩⟩
  · rw [Wide.view_little, bytesOf_length]
  · rw [Wide.view_little, bytesOf_getElem? _ h, Wide.uint]
  · rw [State.completeFull_res, Res.readView_word]
    rfl

/-- Settles O39: the view is the reverse of the bytes of the value, so hi's come first. -/
theorem byteViewBig : Obligations.ByteViewBig := by
  refine ⟨fun w hi lo => ⟨?_, fun i h => ?_, ?_⟩, fun s => ⟨_, exec_mulu_example s, ?_⟩⟩
  · rw [Wide.view_big, List.length_reverse, bytesOf_length]
  · rw [Wide.view_big, bytesOf_reverse_getElem? _ h, Wide.uint]
  · rw [view_big_limbs, bytesOf_reverse, bytesOf_reverse]
  · rw [State.completeFull_res, Res.readView_word]
    rfl

/-- Settles O40: the view is the bytes of its limbs, each of which reads back as the limb; a high variant
leaves RES without a low limb. -/
theorem byteViewReadsBack : Obligations.ByteViewReadsBack := by
  refine ⟨fun w hi lo => ⟨readBack_view w hi lo, ?_, ?_, ?_, ?_⟩, fun w X Y s o i hi => ?_⟩
  · rw [view_little_limbs, List.take_left' (bytesOf_length _ _), readBack_little_bytesOf]
  · rw [view_little_limbs, List.drop_left' (bytesOf_length _ _), readBack_little_bytesOf]
  · rw [view_big_limbs, List.take_left' (by simp), readBack_big_bytesOf]
  · rw [view_big_limbs, List.drop_left' (by simp), readBack_big_bytesOf]
  · simp only [List.mem_cons, List.not_mem_nil, or_false] at hi
    obtain rfl | rfl | rfl := hi <;> exact ⟨_, rfl, Res.readView_without_lo o w _⟩

/-- Settles O41: the step is the read of the view, which RES answers by whether it holds a low limb. -/
theorem byteViewReadGivesTheView : Obligations.ByteViewReadGivesTheView := by
  intro s rest w hi lo hp
  have hstep := step_of_pending hp
  exact ⟨fun hres => by simp [hstep, perform, State.logRead, hres],
    fun hres => by simp [hstep, perform, State.logRead, hres]⟩

/-! ### Proofs of 20_memory.md: requests, runs and several blocks -/

namespace Machine

/-- No request adds or removes a pending request. -/
theorem perform_pending {e : Event} {s t : State} (h : perform e s = .next t) : t.pending = s.pending := by
  obtain ⟨-, i, -, -, hx⟩ | ⟨v, -, rfl⟩ | ⟨-, rfl⟩ := perform_next_cases h
  · obtain ⟨v, -, hexec⟩ := exec_returns i
    rw [hexec] at hx
    cases hx
    rfl
  · rfl
  · rfl

end Machine

/-- Settles O47: the step takes the oldest request off before it performs it. -/
theorem requestsArePerformedInOrder : Obligations.RequestsArePerformedInOrder := by
  intro s t h
  cases hp : s.pending with
  | nil =>
    have ht : s = t := by simpa [step, hp] using h
    rw [← ht, hp, List.tail_nil]
  | cons e rest =>
    rw [step_of_pending hp] at h
    exact perform_pending h

/-- Settles O51: the row sets block k to what its step answers, or stops as that step does. -/
theorem distinctBlocksShareNoState : Obligations.DistinctBlocksShareNoState := by
  intro k blocks s hk
  obtain ⟨hlt, -⟩ := List.getElem?_eq_some_iff.mp hk
  refine ⟨fun t ht => ⟨blocks.set k t, ?_, List.getElem?_set_self hlt, fun j hj => ?_⟩, fun f hf => ?_, fun r hr => ?_⟩
  · simp [stepBlock, hk, ht]
  · exact List.getElem?_set_ne hj.symm
  · simp [stepBlock, hk, hf]
  · simp [stepBlock, hk, hr]

/-- The command word of every operation selects it again (R37). -/
theorem commandWord_statement (i : Instr) : Laws.CommandWord.Statement i := by
  cases i with
  | mulu => exact Laws.CommandWord.mulu ..
  | muls => exact Laws.CommandWord.muls ..
  | mulsu => exact Laws.CommandWord.mulsu ..
  | mulhu => exact Laws.CommandWord.mulhu ..
  | mulhs => exact Laws.CommandWord.mulhs ..
  | mulhsu => exact Laws.CommandWord.mulhsu ..

/-- A well-formed operation survives its encoding. -/
theorem decode_encode {i : Instr} (h : i.wellFormed = true) : decode (encode i) = .ok i := by
  obtain ⟨hcmd, -, hsel⟩ := commandWord_statement i
  obtain ⟨operation, hop, hi⟩ := Option.map_eq_some_iff.mp hsel
  have hfield : (encode i).cmd.setWidth 5 = i.command := setWidth_setWidth_command _
  have hx : (encode i).x = i.x := rfl
  have hy : (encode i).y = i.y := rfl
  simp only [decode, hcmd, if_true, decodeCommand, hfield, hop, hx, hy, hi]
  exact checkOperands_ok.mpr ⟨h, rfl⟩

/-- The value an operation returns: its product at its width and signedness, the high word alone for a
high variant (R12, R13). -/
def Instr.result (i : Instr) : Returned :=
  let x := portValue i.width i.x
  let y := portValue i.width i.y
  if i.high then .high i.width (i.width.word (highProduct i.signedness x y))
  else .full i.width (i.width.word (fullProduct i.signedness x y).hi) (i.width.word (fullProduct i.signedness x y).lo)

namespace Machine
open Spec

/-- Every operation completes from any state with its own result, in RES and returned (R12, R13, R93). -/
theorem exec_eq_result (i : Instr) (s : State) :
    exec i s = .next { s with res := i.result.leaves, returned := s.returned ++ [i.result] } := by
  cases i <;> rfl

/-- A run of issued operations completes from any state: it returns each operation's result in order and
leaves RES as the last one does (R94). -/
theorem run_issues {is : List Instr} (hwf : ∀ i ∈ is, i.wellFormed = true) {s : State} {rest : List Event}
    (hp : s.pending = issues is ++ rest) :
    core.run is.length s = .next { s with
      pending := rest
      returned := s.returned ++ is.map Instr.result
      res := (is.getLast?.map fun i => i.result.leaves).getD s.res } := by
  induction is generalizing s with
  | nil =>
    obtain rfl : s.pending = rest := hp
    simp [Host.Core.run]
  | cons i is ih =>
    obtain ⟨hi, his⟩ := List.forall_mem_cons.mp hwf
    have hstep := (step_of_issue hp (decode_encode hi)).trans (exec_eq_result i _)
    rw [List.length_cons, run_of_next _ hstep, ih his rfl]
    rw [List.getLast?_cons]
    cases is.getLast? <;> simp

/-- What consumer c is returned is the results of its own operations, in its own order. -/
theorem returnedTo_results (c : Nat) (a : List (Nat × Instr)) :
    returnedTo c (a.map Prod.fst) ((a.map Prod.snd).map Instr.result) =
      (a.filter fun p => p.1 == c).map fun p => (p.1, p.2.result) := by
  rw [returnedTo, List.map_map, List.zip_map', List.filter_map]
  rfl

/-- A merged sequence of the consumers' operations runs to its end and returns their results in order. -/
theorem run_merged {a : List (Nat × Instr)} (hwf : ∀ p ∈ a, p.2.wellFormed = true) {s : State}
    (hp : s.pending = issues (a.map Prod.snd)) (hr : s.returned = []) :
    ∃ t, core.run a.length s = .next t ∧ t.returned = (a.map Prod.snd).map Instr.result := by
  have hrun := run_issues (is := a.map Prod.snd) (rest := []) (List.forall_mem_map.mpr hwf) (by simpa using hp)
  rw [List.length_map] at hrun
  exact ⟨_, hrun, by rw [hr, List.nil_append]⟩

end Machine

/-- Settles O50: each run returns the results of its operations in order, so consumer c gets those of its
own, which are the same in both. -/
theorem consumersDoNotDisturbEachOther : Obligations.ConsumersDoNotDisturbEachOther := by
  intro c a b s u ha hb hc hs hu hrs hru
  obtain ⟨t, ht, htr⟩ := run_merged ha hs hrs
  obtain ⟨v, hv, hvr⟩ := run_merged hb hu hru
  refine ⟨t, v, ht, hv, by simp [htr], by simp [hvr], ?_⟩
  rw [htr, hvr, returnedTo_results, returnedTo_results, hc]

end Sys2Proof

/-! ### The command word and the decoder (R34 to R40) -/

namespace Sys2Proof

/-- An operation that HIGH and SGN select has these fields itself, and the width and operands it is given
(R37). -/
theorem selectOperation_some {high : Bool} {sgn : BitVec 2} {op : Width → Word → Word → Instr}
    (h : selectOperation high sgn = some op) (w : Width) (x y : Word) :
    (op w x y).width = w ∧ (op w x y).x = x ∧ (op w x y).y = y ∧ (op w x y).high = high ∧
      (op w x y).signedness.sgn = sgn := by
  unfold selectOperation at h
  split at h <;> cases h <;> exact ⟨rfl, rfl, rfl, rfl, rfl⟩

/-- A selected operation is well formed when its operands fit its width (R2). -/
theorem wellFormed_of_selectOperation {high : Bool} {sgn : BitVec 2} {op : Width → Word → Word → Instr}
    (h : selectOperation high sgn = some op) {w : Width} {x y : Word} (hx : w.fits x = true) (hy : w.fits y = true) :
    (op w x y).wellFormed = true := by
  obtain ⟨hw, hox, hoy, -, -⟩ := selectOperation_some h w x y
  rw [Instr.wellFormed, hw, hox, hoy, hx, hy, Bool.and_self]

/-- A command that fits 5 bits loses nothing when it is cut to them. -/
theorem setWidth_setWidth_cmd {c : BitVec 8} (h : c.toNat < 32) : (c.setWidth 5).setWidth 8 = c := by
  revert c; decide

/-- A transaction that decodes is the encoding of the operation (R34 to R37). -/
theorem encode_of_decode {t : Transaction} {i : Instr} (h : decode t = .ok i) : encode i = t := by
  obtain ⟨hcmd, op, hop, rfl, -⟩ := decode_ok_cases h
  obtain ⟨hw, hx, hy, hhigh, hsgn⟩ :=
    selectOperation_some hop (widthOfWsel (wselField (t.cmd.setWidth 5))) t.x t.y
  rw [encode, Instr.command, hw, hx, hy, hhigh, hsgn, wsel_widthOfWsel, commandWord_fields,
    setWidth_setWidth_cmd hcmd]

/-- A 5-bit command with SGN = 11 is refused, whatever its operands (R40). -/
theorem decode_reserved {t : Transaction} (hcmd : t.cmd.toNat < 32)
    (hsgn : sgnField (t.cmd.setWidth 5) = 0b11#2) : decode t = .error .reservedCommand := by
  simp [decode, decodeCommand, hcmd, selectOperation_eq_none.mpr hsgn]

/-- A 5-bit command that selects an operation is that operation, when its operands fit (R34, R37). -/
theorem decode_selected {t : Transaction} {op : Width → Word → Word → Instr} (hcmd : t.cmd.toNat < 32)
    (hop : selectOperation (highField (t.cmd.setWidth 5)) (sgnField (t.cmd.setWidth 5)) = some op)
    (hx : (widthOfWsel (wselField (t.cmd.setWidth 5))).fits t.x = true)
    (hy : (widthOfWsel (wselField (t.cmd.setWidth 5))).fits t.y = true) :
    decode t = .ok (op (widthOfWsel (wselField (t.cmd.setWidth 5))) t.x t.y) := by
  simp only [decode, hcmd, if_true, decodeCommand, hop]
  exact checkOperands_ok.mpr ⟨wellFormed_of_selectOperation hop hx hy, rfl⟩

/-- A command byte written from its fields is the operation they select, on w-bit operands (R34 to R37). -/
theorem decode_commandWord {high : Bool} {sgn : BitVec 2} {op : Width → Word → Word → Instr} {w : Width}
    {c : BitVec 8} (hop : selectOperation high sgn = some op) (hc : (commandWord w.wsel high sgn).setWidth 8 = c)
    (X Y : BitVec w.bits) : decode ⟨c, w.word X, w.word Y⟩ = .ok (op w (w.word X) (w.word Y)) := by
  subst hc
  have hd := decode_selected (t := ⟨(commandWord w.wsel high sgn).setWidth 8, w.word X, w.word Y⟩)
    (setWidth_command_lt _) (by simpa using hop) (by simp) (by simp)
  simpa using hd

/-- The reserved command words of R40 are those with SGN = 11. -/
theorem mem_reserved_iff_sgnField {c : BitVec 8} (h : c.toNat < 32) :
    c ∈ [0x03#8, 0x07#8, 0x0B#8, 0x0F#8, 0x13#8, 0x17#8, 0x1B#8, 0x1F#8] ↔ sgnField (c.setWidth 5) = 0b11#2 := by
  revert c; decide

/-- The defined command words of R37 are the others. -/
theorem mem_defined_iff_sgnField {c : BitVec 8} (h : c.toNat < 32) :
    c ∈ [0x00#8, 0x01#8, 0x02#8, 0x04#8, 0x05#8, 0x06#8, 0x08#8, 0x09#8, 0x0A#8, 0x0C#8, 0x0D#8, 0x0E#8,
      0x10#8, 0x11#8, 0x12#8, 0x14#8, 0x15#8, 0x16#8, 0x18#8, 0x19#8, 0x1A#8, 0x1C#8, 0x1D#8, 0x1E#8] ↔
      sgnField (c.setWidth 5) ≠ 0b11#2 := by
  revert c; decide

end Sys2Proof

/-! ### The exact product of a signed and an unsigned operand -/

namespace Sys2Proof

/-- Splitting a value in the signed range of 2n bits into limbs keeps its signed reading (R6). -/
theorem Wide.ofInt_sint {n : Nat} (h0 : 0 < n) {z : Int} (hlo : -2 ^ (n + n - 1) ≤ z)
    (hhi : z < 2 ^ (n + n - 1)) : (Wide.ofInt n z).sint = z := by
  rw [Wide.sint, Wide.ofInt_toBits]
  exact BitVec.toInt_ofInt_eq_self (by omega) hlo hhi

/-- MULSU's wide value is the exact product of the signed and the unsigned operand (R65). -/
theorem fullProduct_su_sint {n : Nat} (h0 : 0 < n) (x y : BitVec n) :
    (fullProduct .su x y).sint = x.toInt * (y.toNat : Int) := by
  have hpow : (2 : Int) ^ (n + n - 1) = 2 ^ (n - 1) * 2 ^ n := by
    rw [← pow_add]
    congr 1
    omega
  have hxlo : -2 ^ (n - 1) ≤ x.toInt := BitVec.le_toInt x
  have hxhi : x.toInt < 2 ^ (n - 1) := BitVec.toInt_lt
  have hylt : (y.toNat : Int) < 2 ^ n := by exact_mod_cast y.isLt
  have hy : (0 : Int) ≤ y.toNat := Int.natCast_nonneg _
  have hbound : 2 ^ (n - 1) * (y.toNat : Int) < 2 ^ (n - 1) * 2 ^ n := mul_lt_mul_of_pos_left hylt (by positivity)
  apply Wide.ofInt_sint h0 <;> rw [hpow]
  · calc -(2 ^ (n - 1) * 2 ^ n : Int) ≤ -2 ^ (n - 1) * (y.toNat : Int) := by rw [neg_mul]; exact neg_le_neg hbound.le
      _ ≤ x.toInt * (y.toNat : Int) := mul_le_mul_of_nonneg_right hxlo hy
  · calc x.toInt * (y.toNat : Int) ≤ 2 ^ (n - 1) * (y.toNat : Int) := mul_le_mul_of_nonneg_right hxhi.le hy
      _ < 2 ^ (n - 1) * 2 ^ n := hbound

end Sys2Proof

/-! ### Proofs of 30_encoding.md: commands and issued operations -/

namespace Sys2Proof
open Machine Spec

/-- Settles O1: the fields of the command word select the operation again. -/
theorem encodedInstructionDecodesToItself : Obligations.EncodedInstructionDecodesToItself :=
  fun _ h => decode_encode h

/-- Settles O2: the fields of the selected operation are those of the command word. -/
theorem decodedTransactionIsItsEncoding : Obligations.DecodedTransactionIsItsEncoding := by
  intro t i h
  obtain ⟨-, -, -, -, hwf⟩ := decode_ok_cases h
  exact ⟨encode_of_decode h, hwf⟩

/-- Settles O10: the encoding decodes to the operation, which completes in every state. -/
theorem everyIssuedOperationCompletes : Obligations.EveryIssuedOperationCompletes := by
  intro i s rest hwf hp
  rw [step_of_issue hp (decode_encode hwf)]
  obtain ⟨hhigh, p, hexec⟩ | ⟨hhigh, hi, hexec⟩ := exec_completes i
  · exact ⟨fun _ => ⟨p, hexec _⟩, fun h => by simp [hhigh] at h⟩
  · exact ⟨fun h => by simp [hhigh] at h, fun _ => ⟨hi, hexec _⟩⟩

/-- Settles O3: each listed word is written from its fields, and one that selects an operation has SGN
other than 11. -/
theorem commandMapOfTheSpec : Obligations.CommandMapOfTheSpec := by
  refine ⟨fun w X Y => ⟨?mulu, ?muls, ?mulsu, ?mulhu, ?mulhs, ?mulhsu⟩, fun t i h => ?words⟩
  case mulu => exact decode_commandWord (high := false) (sgn := 0b00#2) rfl (by cases w <;> rfl) X Y
  case muls => exact decode_commandWord (high := false) (sgn := 0b01#2) rfl (by cases w <;> rfl) X Y
  case mulsu => exact decode_commandWord (high := false) (sgn := 0b10#2) rfl (by cases w <;> rfl) X Y
  case mulhu => exact decode_commandWord (high := true) (sgn := 0b00#2) rfl (by cases w <;> rfl) X Y
  case mulhs => exact decode_commandWord (high := true) (sgn := 0b01#2) rfl (by cases w <;> rfl) X Y
  case mulhsu => exact decode_commandWord (high := true) (sgn := 0b10#2) rfl (by cases w <;> rfl) X Y
  case words =>
    obtain ⟨hcmd, op, hop, -, -⟩ := decode_ok_cases h
    rw [mem_defined_iff_sgnField hcmd]
    intro hsgn
    simp [selectOperation_eq_none.mpr hsgn] at hop

/-- Settles O4: SGN = 11 selects no operation, and zero operands fit every width. -/
theorem reservedCommandsAreRefused : Obligations.ReservedCommandsAreRefused := by
  intro c hc
  rw [mem_reserved_iff_sgnField hc]
  refine ⟨fun hsgn x y s rest hp => ?_, fun hsgn => ?_⟩
  · have hd : decode ⟨c, x, y⟩ = .error .reservedCommand := decode_reserved hc hsgn
    rw [step_of_pending hp]
    simp [perform, performIssue, hd, refusalOf]
  · obtain ⟨op, hop⟩ := Option.ne_none_iff_exists'.mp (mt selectOperation_eq_none.mp hsgn)
    exact ⟨_, decode_selected hc hop (by simp [Width.fits]) (by simp [Width.fits])⟩

/-- Settles O5: each call's command is written from the fields of its operation, (false, true) has
SGN = 11, and MULSU with the operands swapped reads Y signed and X unsigned. -/
theorem callInterfaceMapsToCommands : Obligations.CallInterfaceMapsToCommands := by
  intro w X Y
  refine ⟨?_, ?_, ?_, ?_, ?_, ?_, fun high x y => ?reserved, ?swapped⟩
  case reserved =>
    exact decode_reserved (setWidth_command_lt _) (by simp [callTransaction, sgnOfFlags])
  case swapped =>
    refine ⟨(fullProduct .su Y X).hi, (fullProduct .su Y X).lo, fun s => ?_, ?_⟩
    · rw [exec_mulsu, portValue_word, portValue_word]
      rfl
    · rw [Int.mul_comm]
      exact fullProduct_su_sint w.bits_pos Y X
  all_goals exact decode_commandWord rfl rfl X Y

end Sys2Proof

/-! ### Proofs of 30_encoding.md: the assembler's digits (R42) -/

namespace Sys2Proof
open Spec

/-- The range test of the assembler is the range of R42. -/
theorem literalInRange_iff {w : Width} {n : Int} : literalInRange w n = true ↔ InRange w n := by
  simp [literalInRange, InRange]

theorem assembleLiteral_of_inRange {w : Width} {n : Int} (h : InRange w n) :
    assembleLiteral w n = some (w.word (BitVec.ofInt w.bits n)) :=
  if_pos (literalInRange_iff.mpr h)

theorem assembleLiteral_of_not_inRange {w : Width} {n : Int} (h : ¬ InRange w n) : assembleLiteral w n = none :=
  if_neg (mt literalInRange_iff.mp h)

/-- Settles O53: the literal is accepted exactly when its range test holds. -/
theorem assemblerAcceptsLiteralsInRange : Obligations.AssemblerAcceptsLiteralsInRange := fun _ _ =>
  ⟨assembleLiteral_of_inRange, assembleLiteral_of_not_inRange⟩

/-- Cutting at c finds the first c. -/
theorem cutAt_append {c : Char} {before : List Char} (h : c ∉ before) (after : List Char) :
    cutAt c (before ++ c :: after) = some (before, after) := by
  induction before with
  | nil => simp [cutAt]
  | cons d before ih =>
    have hd : d ≠ c := Ne.symm (List.ne_of_not_mem_cons h)
    simp [cutAt, hd, ih (List.not_mem_of_not_mem_cons h)]

/-- A text that holds no space stops the dropping of spaces at its first character. -/
theorem dropSpaces_append {text : List Char} (hne : text ≠ []) (h : ' ' ∉ text) (after : List Char) :
    dropSpaces (text ++ after) = text ++ after := by
  obtain ⟨c, rest, rfl⟩ := List.exists_cons_of_ne_nil hne
  have hc : c ≠ ' ' := Ne.symm (List.ne_of_not_mem_cons h)
  simp [dropSpaces, hc]

section
variable {base : Nat} {digit : Char → Option Nat}

/-- The last digit counts once, and those before it base times. -/
theorem digitsFrom_append_digit {c : Char} {d : Nat} (hc : digit c = some d) (acc : Nat) (text : List Char) :
    digitsFrom base digit acc (text ++ [c]) = (digitsFrom base digit acc text).map fun n => n * base + d := by
  induction text generalizing acc with
  | nil => simp [digitsFrom, hc]
  | cons e text ih => cases he : digit e <;> simp [digitsFrom, he, ih]

/-- Zeros before the other digits count nothing (log 15). -/
theorem digitsFrom_zeros (h0 : digit '0' = some 0) (zeros : Nat) (text : List Char) :
    digitsFrom base digit 0 (List.replicate zeros '0' ++ text) = digitsFrom base digit 0 text := by
  induction zeros with
  | zero => simp
  | succ zeros ih => simp [List.replicate_succ, digitsFrom, h0, ih]

/-- The digits of a number in a base read back as the number. -/
theorem digitsFrom_toDigits (hbase : 1 < base) (hdigit : ∀ d < base, digit d.digitChar = some d) (n : Nat) :
    digitsFrom base digit 0 (Nat.toDigits base n) = some n := by
  induction n using Nat.strongRecOn with
  | ind n ih =>
    by_cases hn : n < base
    · simp [Nat.toDigits_of_lt_base hn, digitsFrom, hdigit n hn]
    · rw [Nat.toDigits_of_base_le hbase (by omega),
        digitsFrom_append_digit (hdigit _ (Nat.mod_lt _ (by omega))), ih _ (Nat.div_lt_self (by omega) hbase),
        Option.map_some, Nat.div_add_mod']

/-- A text that reads as a number holds digits only. -/
theorem not_mem_of_digitsFrom {c : Char} (hc : digit c = none) {text : List Char} {acc n : Nat}
    (h : digitsFrom base digit acc text = some n) : c ∉ text := by
  induction text generalizing acc with
  | nil => exact List.not_mem_nil
  | cons e text ih =>
    cases he : digit e with
    | none => simp [digitsFrom, he] at h
    | some d =>
      have hne : c ≠ e := by rintro rfl; simp [hc] at he
      rw [digitsFrom, he] at h
      exact List.not_mem_cons_of_ne_of_not_mem hne (ih h)

/-- At least one digit stands in a number's text. -/
theorem digits_eq_some {text : List Char} {n : Nat} :
    digits base digit text = some n ↔ text ≠ [] ∧ digitsFrom base digit 0 text = some n := by
  cases text <;> simp [digits]

theorem digits_toDigits (hbase : 1 < base) (hdigit : ∀ d < base, digit d.digitChar = some d) (n : Nat) :
    digits base digit (Nat.toDigits base n) = some n :=
  digits_eq_some.mpr ⟨Nat.toDigits_ne_nil, digitsFrom_toDigits hbase hdigit n⟩

end

theorem decimalDigit_digitChar : ∀ d < 10, decimalDigit d.digitChar = some d := by decide

theorem hexDigit_digitChar : ∀ d < 16, hexDigit d.digitChar = some d := by decide

/-- A character that is no hexadecimal digit is no decimal one. -/
theorem decimalDigit_of_hexDigit {c : Char} (h : hexDigit c = none) : decimalDigit c = none := by
  by_contra hd
  have hrange : 48 ≤ c.toNat ∧ c.toNat ≤ 57 := by by_contra hr; exact hd (if_neg hr)
  simp [hexDigit, hrange] at h

/-- A hexadecimal digit has the same value in either case (log 15). -/
theorem hexDigit_toLower (c : Char) : hexDigit c.toLower = hexDigit c := by
  by_cases hupper : c.isUpper = true
  · have hrange : 65 ≤ c.toNat ∧ c.toNat ≤ 90 := by simpa [Char.isUpper, UInt32.le_iff_toNat_le] using hupper
    have hlower : c.toLower.toNat = c.toNat + 32 := by
      rw [Char.toLower_eq_of_isUpper hupper, Char.toNat_ofNat]
      exact if_pos (.inl (by omega))
    simp only [hexDigit, hlower]
    grind
  · rw [Char.toLower_eq_of_not_isUpper hupper]

/-- Hexadecimal digits read the same in either case (log 15). -/
theorem digitsFrom_hex_map_toLower (acc : Nat) (text : List Char) :
    digitsFrom 16 hexDigit acc (text.map Char.toLower) = digitsFrom 16 hexDigit acc text := by
  induction text generalizing acc with
  | nil => rfl
  | cons c text ih => simp only [List.map_cons, digitsFrom, hexDigit_toLower, ih]

/-! ### Proofs of 30_encoding.md: the assembler's literals and lines (R42) -/

/-- A text of decimal digits is read as a decimal number: no 0x and no minus sign stands before it. -/
theorem parseLiteral_decimal {text : List Char} {n : Nat} (h : digits 10 decimalDigit text = some n) :
    parseLiteral text = some (n : Int) := by
  obtain ⟨-, hdigits⟩ := digits_eq_some.mp h
  have hx : 'x' ∉ text := not_mem_of_digitsFrom rfl hdigits
  have hminus : '-' ∉ text := not_mem_of_digitsFrom rfl hdigits
  unfold parseLiteral
  split
  · simp at hx
  · simp at hminus
  · simp [h]

/-- A spelled literal is read as its number (R42). -/
theorem parseLiteral_of_spells {text : List Char} {n : Int} (h : Spells text n) : parseLiteral text = some n := by
  obtain ⟨hn, rfl⟩ | ⟨hn, rfl⟩ | ⟨hn, zeros, hex, rfl, hhex⟩ := h
  · rw [parseLiteral_decimal (digits_toDigits (by decide) decimalDigit_digitChar _), Int.natAbs_of_nonneg hn]
  · have hdigits := digits_toDigits (by decide) decimalDigit_digitChar n.natAbs
    simp [parseLiteral, hdigits, abs_of_neg hn]
  · have hne : hex ≠ [] := by
      rintro rfl
      simp [Nat.toDigits_ne_nil] at hhex
    have hdigits : digits 16 hexDigit hex = some n.natAbs := by
      rw [digits_eq_some, ← digitsFrom_hex_map_toLower, hhex, digitsFrom_zeros rfl]
      exact ⟨hne, digitsFrom_toDigits (by decide) hexDigit_digitChar _⟩
    simp [parseLiteral, hdigits, Int.natAbs_of_nonneg hn]

/-- A literal's value comes from at least one digit, whatever becomes of its sign. -/
theorem digits_of_literal {base : Nat} {digit : Char → Option Nat} {text : List Char} {sign : Int → Int} {n : Int}
    (h : (do let m ← digits base digit text; pure (m : Int)).map sign = some n) :
    text ≠ [] ∧ ∃ m, digitsFrom base digit 0 text = some m := by
  cases hm : digits base digit text with
  | none => simp [hm] at h
  | some m =>
    obtain ⟨hne, hdigits⟩ := digits_eq_some.mp hm
    exact ⟨hne, m, hdigits⟩

/-- A literal's text is not empty and holds hexadecimal digits, a minus sign and an x only. -/
theorem ne_nil_and_not_mem_of_parseLiteral {text : List Char} {n : Int} (h : parseLiteral text = some n) :
    text ≠ [] ∧ ∀ c, hexDigit c = none → c ≠ 'x' → c ≠ '-' → c ∉ text := by
  unfold parseLiteral at h
  split at h
  case h_1 rest =>
    obtain ⟨-, m, hdigits⟩ := digits_of_literal h
    refine ⟨List.cons_ne_nil _ _, fun c hc hx _ => ?_⟩
    have hzero : c ≠ '0' := by rintro rfl; cases hc
    simp [hzero, hx, not_mem_of_digitsFrom hc hdigits]
  case h_2 rest =>
    obtain ⟨-, m, hdigits⟩ := digits_of_literal h
    refine ⟨List.cons_ne_nil _ _, fun c hc _ hminus => ?_⟩
    simp [hminus, not_mem_of_digitsFrom (decimalDigit_of_hexDigit hc) hdigits]
  case h_3 =>
    obtain ⟨hne, m, hdigits⟩ := digits_of_literal h
    exact ⟨hne, fun c hc _ _ => not_mem_of_digitsFrom (decimalDigit_of_hexDigit hc) hdigits⟩

/-- A mnemonic in any case names its operation (R42). -/
theorem operationOfName_mnemonic {name : List Char} {op : Width → Word → Word → Instr} {w : Width} {x y : Word}
    (hop : op ∈ [Instr.mulu, Instr.muls, Instr.mulsu, Instr.mulhu, Instr.mulhs, Instr.mulhsu])
    (hname : name.map Char.toLower = mnemonicText (op w x y)) : operationOfName name = some op := by
  simp only [List.mem_cons, List.not_mem_nil, or_false] at hop
  obtain rfl | rfl | rfl | rfl | rfl | rfl := hop <;> simp [operationOfName, hname, mnemonicText]

/-- No mnemonic in any case holds the dot that ends it. -/
theorem dot_not_mem_mnemonic {name : List Char} {i : Instr} (hname : name.map Char.toLower = mnemonicText i) :
    '.' ∉ name := by
  intro h
  have hdot : '.' ∈ mnemonicText i := hname ▸ List.mem_map_of_mem h
  cases i <;> simp [mnemonicText] at hdot

@[simp] theorem widthOfName_widthText (w : Width) : widthOfName (widthText w) = some w := by cases w <;> rfl

theorem space_not_mem_widthText (w : Width) : ' ' ∉ widthText w := by cases w <;> decide

/-- A line's parts are cut out where they were joined, so the line is its operation on the operands that
the literals stand for. -/
theorem assemble_line {name xText yText : List Char} {op : Width → Word → Word → Instr} {w : Width} {nx ny : Int}
    (hdot : '.' ∉ name) (hop : operationOfName name = some op) (hx : parseLiteral xText = some nx)
    (hy : parseLiteral yText = some ny) :
    assemble (name ++ ['.'] ++ widthText w ++ [' '] ++ xText ++ [',', ' '] ++ yText) =
      (assembleLiteral w nx).bind fun x => (assembleLiteral w ny).map fun y => op w x y := by
  obtain ⟨hxne, hxchars⟩ := ne_nil_and_not_mem_of_parseLiteral hx
  obtain ⟨hyne, hychars⟩ := ne_nil_and_not_mem_of_parseLiteral hy
  have hxspace : ' ' ∉ xText := hxchars ' ' rfl (by decide) (by decide)
  have hxcomma : ',' ∉ xText := hxchars ',' rfl (by decide) (by decide)
  have hyspace : ' ' ∉ yText := hychars ' ' rfl (by decide) (by decide)
  have hydrop : dropSpaces (' ' :: yText) = yText := by
    simpa [dropSpaces] using dropSpaces_append hyne hyspace []
  simp [assemble, cutAt_append hdot, cutAt_append (space_not_mem_widthText w), dropSpaces_append hxne hxspace,
    cutAt_append hxcomma, hydrop, hop, assembleOperand, hx, hy, Option.map_eq_bind]

/-- Settles O54: the line is cut into its parts, and each literal is accepted exactly when it is in range. -/
theorem assembledLineIsItsOperation : Obligations.AssembledLineIsItsOperation := by
  intro w nx ny name xText yText op hop hname hx hy
  rw [assemble_line (dot_not_mem_mnemonic hname) (operationOfName_mnemonic hop hname) (parseLiteral_of_spells hx)
    (parseLiteral_of_spells hy)]
  refine ⟨fun hnx hny => ?_, fun hout => ?_⟩
  · simp [assembleLiteral_of_inRange hnx, assembleLiteral_of_inRange hny]
  · by_cases hnx : InRange w nx
    · have hny : ¬ InRange w ny := fun hny => hout ⟨hnx, hny⟩
      simp [assembleLiteral_of_not_inRange hny]
    · simp [assembleLiteral_of_not_inRange hnx]

end Sys2Proof

/-! ### The kernel's result as the exact product (R48 to R51) -/

namespace Sys2Proof

section
variable {n : Nat}

/-- Equal readings are equal wide values (R15). -/
theorem Wide.uint_injective {p q : Wide n} (h : p.uint = q.uint) : p = q :=
  Wide.toBits_injective (BitVec.eq_of_toNat_eq (by simpa using h))

/-- The exact sum of two n-bit values is their n-bit sum, and 2^n where the addition carries (R48, R49). -/
theorem toNat_add_toNat_eq_ite_carryOut (a b : BitVec n) :
    a.toNat + b.toNat = (a + b).toNat + (if carryOut a b then 2 ^ n else 0) := by
  rw [← add_toNat_add_carryOut]
  cases carryOut a b <;> simp

variable (hn : n / 2 + n / 2 = n) (h0 : 0 < n)
include hn h0

/-- The kernel's limbs are the only ones that hold the exact product (R51). -/
theorem kernel_eq_of_uint {x y : BitVec n} {p : Wide n} (h : p.uint = x.toNat * y.toNat) : kernel x y = p :=
  Wide.uint_injective ((kernel_uint hn h0 x y).trans h.symm)

theorem kernel_comm (x y : BitVec n) : kernel x y = kernel y x :=
  kernel_eq_of_uint hn h0 ((kernel_uint hn h0 y x).trans (Nat.mul_comm ..))

/-- The high limb is at most 2^n - 2, because the product is at most (2^n - 1)^2 (R51). -/
theorem kernel_hi_le (x y : BitVec n) : (kernel x y).hi.toNat ≤ 2 ^ n - 2 := by
  have hpow : 1 < 2 ^ n := Nat.one_lt_two_pow h0.ne'
  have hlt : (kernel x y).hi.toNat * 2 ^ n < (2 ^ n - 1) * 2 ^ n :=
    calc (kernel x y).hi.toNat * 2 ^ n ≤ x.toNat * y.toNat := by
          rw [← kernel_uint hn h0]; exact Nat.le_add_right ..
      _ ≤ (2 ^ n - 1) * (2 ^ n - 1) := Nat.mul_le_mul (Nat.le_sub_one_of_lt x.isLt) (Nat.le_sub_one_of_lt y.isLt)
      _ < (2 ^ n - 1) * 2 ^ n := Nat.mul_lt_mul_of_pos_left (by omega) (by omega)
  have hhi := Nat.lt_of_mul_lt_mul_right hlt
  omega

/-- The high limb is the quotient of the product by 2^n (R51). -/
theorem kernel_hi_toNat_eq_div (x y : BitVec n) : (kernel x y).hi.toNat = x.toNat * y.toNat / 2 ^ n := by
  rw [← kernel_uint hn h0, Wide.uint, Nat.mul_comm, Nat.mul_add_div (by positivity),
    Nat.div_eq_of_lt (kernel x y).lo.isLt, Nat.add_zero]

/-- The high limb is zero exactly when the product fits in n bits (R53). -/
theorem kernel_hi_eq_zero_iff (x y : BitVec n) : (kernel x y).hi = 0 ↔ x.toNat * y.toNat < 2 ^ n := by
  rw [BitVec.toNat_eq, kernel_hi_toNat_eq_div hn h0]
  simp [Nat.div_eq_zero_iff]

end

end Sys2Proof

/-! ### Proofs of 40_unsigned.md: the kernel and MULU -/

namespace Sys2Proof
open Machine Spec

/-- MULU on w-bit operands completes with the kernel's limbs (R52). -/
theorem gives_mulu_kernel (w : Width) (X Y : BitVec w.bits) :
    Gives (.mulu w (w.word X) (w.word Y)) w (kernel X Y).hi (kernel X Y).lo := by
  intro s
  rw [exec_mulu, portValue_word, portValue_word, ← kernel_eq_fullProduct w.half_add_half w.bits_pos]
  rfl

/-- MULU completes with any limbs that hold the exact product (R52). -/
theorem gives_mulu_of_mul {w : Width} {X Y hi lo : BitVec w.bits}
    (h : hi.toNat * 2 ^ w.bits + lo.toNat = X.toNat * Y.toNat) : Gives (.mulu w (w.word X) (w.word Y)) w hi lo := by
  have hkernel : kernel X Y = ⟨hi, lo⟩ := kernel_eq_of_uint w.half_add_half w.bits_pos h
  simpa [hkernel] using gives_mulu_kernel w X Y

/-- Settles O20: the limbs are quotient and remainder by 2^h, and a product of two of them fits w bits. -/
theorem limbsAndCrossProductsAreExact : Obligations.LimbsAndCrossProductsAreExact := fun w X Y =>
  have hn := w.half_add_half
  ⟨(highLimb_mul_add_lowLimb hn X).symm, (highLimb_mul_add_lowLimb hn Y).symm, crossProduct_toNat hn _ _,
    crossProduct_toNat hn _ _, crossProduct_toNat hn _ _, crossProduct_toNat hn _ _⟩

/-- Settles O21: both carries are those of a w-bit addition, which a comparison with an addend detects. -/
theorem kernelCarriesAreTheAdditionCarries : Obligations.KernelCarriesAreTheAdditionCarries := fun _ _ _ =>
  ⟨toNat_add_toNat_eq_ite_carryOut _ _, (carryByComparison_add _ _).symm, toNat_add_toNat_eq_ite_carryOut _ _,
    (carryByComparison_add _ _).symm⟩

/-- Settles O22: the exact product of two w-bit values leaves no room for the high sum to wrap. -/
theorem kernelComputesTheExactProduct : Obligations.KernelComputesTheExactProduct := fun w X Y =>
  have hn := w.half_add_half
  have h0 := w.bits_pos
  ⟨kernel_uint hn h0 X Y, kernelHighSum_lt hn h0 X Y, kernel_hi_toNat hn h0 X Y, kernel_hi_le hn h0 X Y⟩

/-- Settles O11: the command words are MULU's, the limbs are the kernel's, and the kernel is exact. -/
theorem muluWritesTheExactProduct : Obligations.MuluWritesTheExactProduct := by
  refine ⟨fun w X Y s => ⟨?_, gives_mulu_kernel w X Y s, kernel_uint w.half_add_half w.bits_pos X Y⟩, ?_⟩
  · exact decode_commandWord (high := false) (sgn := 0b00#2) rfl (by cases w <;> rfl) X Y
  · exact gives_mulu_of_mul (w := .w8) (X := 254#8) (Y := 254#8) (by decide)

/-- Settles O27: each listed result holds the exact product, and the range, the test and the commutativity
are the kernel's. -/
theorem muluLaws : Obligations.MuluLaws := by
  intro w X Y
  have hn := w.half_add_half
  have h0 := w.bits_pos
  have hpow : 1 < 2 ^ w.bits := Nat.one_lt_two_pow h0.ne'
  refine ⟨?xZero, ?zeroY, ?xOne, ?largest, ⟨_, _, gives_mulu_kernel w X Y, ?range, ?fits⟩, fun s => ?comm⟩
  case xZero => exact gives_mulu_of_mul (by simp)
  case zeroY => exact gives_mulu_of_mul (by simp)
  case xOne => exact gives_mulu_of_mul (by simp [Nat.mod_eq_of_lt hpow])
  case largest =>
    obtain ⟨k, hk⟩ : ∃ k, 2 ^ w.bits = k + 2 := Nat.exists_eq_add_of_le' hpow
    have hhi : (BitVec.ofNat w.bits (2 ^ w.bits - 2)).toNat = k := by simp [hk, Nat.mod_eq_of_lt]
    have hlo : (1 : BitVec w.bits).toNat = 1 := BitVec.toNat_one h0
    have hones : (ones w).toNat = k + 1 := by simp [ones, hk]
    apply gives_mulu_of_mul
    rw [hhi, hlo, hones, hk]
    ring
  case range => exact kernel_hi_le hn h0 X Y
  case fits => exact kernel_hi_eq_zero_iff hn h0 X Y
  case comm => rw [gives_mulu_kernel w X Y s, gives_mulu_kernel w Y X s, kernel_comm hn h0 X Y]

end Sys2Proof

/-! ### The exact product of two signed operands (R60 to R62) -/

namespace Sys2Proof

section
variable {n : Nat}

/-- A wide value is the split of its signed reading (R6). -/
theorem Wide.ofInt_of_sint_eq {p : Wide n} {z : Int} (h : p.sint = z) : Wide.ofInt n z = p :=
  (Wide.eq_ofInt (by rw [← h, Wide.sint, BitVec.ofInt_toInt])).symm

/-- The signed reading of a wide value: the high limb carries the sign, and the low limb is unsigned (R6). -/
theorem Wide.sint_eq (h0 : 0 < n) (p : Wide n) : p.sint = p.hi.toInt * 2 ^ n + (p.lo.toNat : Int) := by
  simp [Wide.sint, Wide.toBits, BitVec.toInt_append, h0.ne', mul_comm]

/-- The low limb of bits_2n(z) is bits_n(z). -/
theorem Wide.ofInt_lo (z : Int) : (Wide.ofInt n z).lo = BitVec.ofInt n z := by
  have hdvd : ((2 ^ n : Nat) : Int) ∣ ((2 ^ (n + n) : Nat) : Int) :=
    Int.natCast_dvd_natCast.mpr (pow_dvd_pow 2 (Nat.le_add_right n n))
  have hlow : (z % ((2 ^ (n + n) : Nat) : Int)).toNat % 2 ^ n = (z % ((2 ^ n : Nat) : Int)).toNat := by
    rw [← Int.emod_emod_of_dvd z hdvd, Int.toNat_emod (Int.emod_nonneg _ (by positivity)) (Int.natCast_nonneg _),
      Int.toNat_natCast]
  apply BitVec.eq_of_toNat_eq
  simpa [Wide.ofInt] using hlow

/-- The low limb does not depend on how the operands are read: it is their n-bit product (R67). -/
theorem fullProduct_lo (sg : Signedness) (x y : BitVec n) : (fullProduct sg x y).lo = x * y := by
  have hread (signed : Bool) (v : BitVec n) : BitVec.ofInt n (readAs signed v) = v := by
    cases signed <;> simp [readAs, BitVec.ofInt_natCast]
  rw [fullProduct, Wide.ofInt_lo, exactProduct, BitVec.ofInt_mul, hread, hread]

/-- A signed product lies in the range of 2n bits, so its limbs read signed are the product (R60). -/
theorem fullProduct_ss_sint (h0 : 0 < n) (x y : BitVec n) : (fullProduct .ss x y).sint = x.toInt * y.toInt := by
  have hpow : (2 : Int) ^ (n * 2 - 2) < 2 ^ (n + n - 1) := pow_lt_pow_right₀ (by decide) (by omega)
  have hlo := BitVec.le_toInt_mul_toInt (x := x) (y := y)
  have hhi := BitVec.toInt_mul_toInt_le (x := x) (y := y)
  exact Wide.ofInt_sint h0 ((neg_lt_neg hpow).le.trans hlo) (hhi.trans_lt hpow)

theorem fullProduct_ss_comm (x y : BitVec n) : fullProduct .ss x y = fullProduct .ss y x :=
  congrArg (Wide.ofInt n) (mul_comm ..)

/-- Two numbers from −m to m − 1 have a product from −m·(m−1) to m² (R62). -/
theorem mul_mem_signed_range {m a b : Int} (ha : -m ≤ a) (ha' : a ≤ m - 1) (hb : -m ≤ b) (hb' : b ≤ m - 1) :
    -(m * (m - 1)) ≤ a * b ∧ a * b ≤ m * m := by
  constructor
  · have hm : 0 ≤ m - 1 := by omega
    obtain hneg | hpos := le_total a 0
    · have hb_le : a * (m - 1) ≤ a * b := mul_le_mul_of_nonpos_left hb' hneg
      have ha_ge : -m * (m - 1) ≤ a * (m - 1) := mul_le_mul_of_nonneg_right ha hm
      linarith
    · have hb_ge : a * -m ≤ a * b := mul_le_mul_of_nonneg_left hb hpos
      have ha_le : a * m ≤ (m - 1) * m := mul_le_mul_of_nonneg_right ha' (by omega)
      linarith
  · have hA : |a| ≤ m := abs_le.mpr ⟨ha, by omega⟩
    have hB : |b| ≤ m := abs_le.mpr ⟨hb, by omega⟩
    calc a * b ≤ |a| * |b| := by rw [← abs_mul]; exact le_abs_self _
      _ ≤ m * m := mul_le_mul hA hB (abs_nonneg b) ((abs_nonneg a).trans hA)

/-- The sign bit of an operand is its most significant bit (R54). -/
theorem signBit_eq_msb (v : BitVec n) : signBit v = v.msb := (BitVec.msb_eq_getLsbD_last v).symm

/-- The magnitude is the absolute value (R55). -/
theorem magnitude_toNat (v : BitVec n) : (magnitude v).toNat = v.toInt.natAbs := by
  have hsign : ∀ b, (signFactor b).natAbs = 1 := by decide
  rw [toInt_eq_signFactor_mul_magnitude, Int.natAbs_mul, hsign, Int.natAbs_natCast, Nat.one_mul]

end

/-! ### The listed operands of R62 and their signed readings -/

namespace Spec

theorem minNeg_eq_intMin (w : Width) : minNeg w = BitVec.intMin w.bits :=
  BitVec.eq_of_toNat_eq (by rw [minNeg, BitVec.toNat_ofNat, BitVec.toNat_intMin])

/-- There are 2m values of w bits, m = 2^(w−1). -/
theorem two_pow_bits_eq (w : Width) : (2 : Int) ^ w.bits = 2 * half w := by cases w <;> rfl

@[simp] theorem minNeg_toInt (w : Width) : (minNeg w).toInt = -half w := by
  rw [minNeg_eq_intMin, BitVec.toInt_intMin_of_pos w.bits_pos, half]

theorem minNeg_toInt_neg (w : Width) : (minNeg w).toInt < 0 := by
  rw [minNeg_toInt, half]
  exact neg_neg_of_pos (by positivity)

@[simp] theorem minNeg_toNat (w : Width) : ((minNeg w).toNat : Int) = half w := by
  rw [minNeg_eq_intMin, BitVec.toNat_intMin_of_pos w.bits_pos, half, Nat.cast_pow, Nat.cast_ofNat]

@[simp] theorem maxPos_toInt (w : Width) : (maxPos w).toInt = half w - 1 := by cases w <;> rfl

@[simp] theorem ones_toInt (w : Width) : (ones w).toInt = -1 := by
  rw [ones, BitVec.toInt_allOnes, if_pos w.bits_pos]

@[simp] theorem one_toInt (w : Width) : (1#w.bits).toInt = 1 := by cases w <;> rfl

/-- The high limb of the most negative value's square is a quarter of 2^w, which is positive. -/
theorem quarter_toInt (w : Width) : (BitVec.ofNat w.bits (2 ^ (w.bits - 2))).toInt * 2 = half w := by
  cases w <;> rfl

/-- A sign limb stands for a borrow of 2^w: it makes the unsigned reading of X the signed one (R62). -/
theorem fill_msb_toInt (w : Width) (X : BitVec w.bits) :
    (fill w X.msb).toInt * 2 ^ w.bits + (X.toNat : Int) = X.toInt := by
  rw [BitVec.toInt_eq_msb_cond X]
  cases X.msb <;> simp [fill, BitVec.toInt_allOnes, w.bits_pos]
  ring

end Spec

end Sys2Proof

/-! ### Proofs of 41_signed.md: the sign correction and MULS -/

namespace Sys2Proof
open Machine Spec

/-- MULS on w-bit operands completes with the limbs of their signed product (R61). -/
theorem gives_muls (w : Width) (X Y : BitVec w.bits) :
    Gives (.muls w (w.word X) (w.word Y)) w (fullProduct .ss X Y).hi (fullProduct .ss X Y).lo := by
  intro s
  rw [exec_muls, portValue_word, portValue_word]
  rfl

/-- MULS completes with any limbs that hold the exact signed product (R61). -/
theorem gives_muls_of_mul {w : Width} {X Y hi lo : BitVec w.bits}
    (h : hi.toInt * 2 ^ w.bits + (lo.toNat : Int) = X.toInt * Y.toInt) :
    Gives (.muls w (w.word X) (w.word Y)) w hi lo := by
  have hsint : (Wide.mk hi lo).sint = X.toInt * Y.toInt := (Wide.sint_eq w.bits_pos _).trans h
  have hproduct : fullProduct .ss X Y = ⟨hi, lo⟩ := Wide.ofInt_of_sint_eq hsint
  simpa [hproduct] using gives_muls w X Y

/-- MULS completes with limbs that read signed are the exact product (R61). -/
theorem gives_muls_sint (w : Width) (X Y : BitVec w.bits) : ∃ hi lo,
    Gives (.muls w (w.word X) (w.word Y)) w hi lo ∧ (Wide.mk hi lo).sint = X.toInt * Y.toInt :=
  ⟨_, _, gives_muls w X Y, fullProduct_ss_sint w.bits_pos X Y⟩

/-- MULS by one extends the sign of the other operand over the high limb (R62). -/
theorem gives_muls_one (w : Width) (X : BitVec w.bits) : Gives (.muls w (w.word X) (w.word 1)) w (fill w X.msb) X :=
  gives_muls_of_mul (by simp [fill_msb_toInt])

/-- Over a negative operand the extended sign is all ones (R62). -/
theorem gives_muls_one_of_neg {w : Width} {X : BitVec w.bits} (h : X.toInt < 0) :
    Gives (.muls w (w.word X) (w.word 1)) w (ones w) X := by
  have hmsb : X.msb = true := by rw [BitVec.msb_eq_toInt, decide_eq_true h]
  have hgives := gives_muls_one w X
  rwa [hmsb] at hgives

/-- The signed path is exact (R60). -/
theorem signedPath_sint (w : Width) (X Y : BitVec w.bits) : (signedPath X Y).sint = X.toInt * Y.toInt := by
  rw [signedPath_eq_fullProduct w.half_add_half w.bits_pos, fullProduct_ss_sint w.bits_pos]

/-- The mixed path is exact (R63). -/
theorem signedUnsignedPath_sint (w : Width) (X Y : BitVec w.bits) :
    (signedUnsignedPath X Y).sint = X.toInt * (Y.toNat : Int) := by
  rw [signedUnsignedPath_eq_fullProduct w.half_add_half w.bits_pos, fullProduct_su_sint w.bits_pos]

/-- Settles O23: the signed value is the sign times the magnitude, and the most negative value is its own
negation. -/
theorem magnitudeIsTheAbsoluteValue : Obligations.MagnitudeIsTheAbsoluteValue := by
  refine ⟨fun w V => ⟨?sign, magnitude_toNat V⟩, fun w => ⟨?mostNegative, minNeg_toInt w⟩⟩
  case sign => rw [signBit_eq_msb, BitVec.msb_eq_toInt, decide_eq_true_iff]
  case mostNegative => simp [magnitude, minNeg_eq_intMin, BitVec.neg_intMin]

/-- Settles O24: the borrow of the decrement is the zero test of the low limb, and complementing the
decremented value negates it. -/
theorem deferredNegationNegates : Obligations.DeferredNegationNegates := by
  intro w p
  have h0 := w.bits_pos
  have hborrow : (negationSignals p).hib = borrowByZero p.lo := borrowOut_sub_one h0 p.lo
  refine ⟨rfl, rfl, hborrow, ?high, rfl, ?negates, ?zero⟩
  case high =>
    rw [show (negationSignals p).hi2 = p.hi - bit (negationSignals p).hib from rfl, hborrow]
    by_cases hlo : p.lo = 0#w.bits <;> simp [borrowByZero, bit, hlo]
  case negates =>
    rw [negateWide_toBits h0, BitVec.ofInt_neg, BitVec.ofInt_natCast, ← Wide.toBits_toNat, BitVec.ofNat_toNat,
      BitVec.setWidth_eq]
  case zero =>
    apply Wide.toBits_injective
    rw [negateWide_toBits h0]
    simp [Wide.toBits]

/-- Settles O26: the result sign is set where the correction negates, and each path is its contract, whose
product lies in the signed range of 2w bits. -/
theorem signedDatapathsAreExact : Obligations.SignedDatapathsAreExact := by
  intro w X Y
  refine ⟨?signs, ?sign, signedPath_sint w X Y, signedUnsignedPath_sint w X Y⟩
  case signs =>
    rw [signedPath, signBit_eq_msb, signBit_eq_msb]
    cases X.msb <;> cases Y.msb <;> rfl
  case sign => rw [signedUnsignedPath, signBit_eq_msb, correctSign]

/-- Settles O12: the command words are MULS's, the limbs are the signed path's, and the path is exact. -/
theorem mulsWritesTheExactProduct : Obligations.MulsWritesTheExactProduct := by
  refine ⟨fun w X Y s => ⟨?command, ?limbs, signedPath_sint w X Y⟩, ?worked⟩
  case command => exact decode_commandWord (high := false) (sgn := 0b01#2) rfl (by cases w <;> rfl) X Y
  case limbs =>
    rw [signedPath_eq_fullProduct w.half_add_half w.bits_pos]
    exact gives_muls w X Y s
  case worked => exact gives_muls_of_mul (w := .w8) (X := 0x80#8) (Y := 0x80#8) (by decide)

/-- Settles O28: each listed result holds the exact signed product, and the others follow from the readings
of the product and of its low limb. -/
theorem mulsLaws : Obligations.MulsLaws := by
  refine ⟨fun w X Y => ⟨?minMin, ?minOnes, ?minOne, ?minMax, ?xZero, ?onesOnes, ?onesOne, ?range, ?xOne,
    ?square, fun s => ?comm⟩, ?at8, by decide⟩
  case minMin =>
    apply gives_muls_of_mul
    rw [two_pow_bits_eq, minNeg_toInt, show ((0 : BitVec w.bits).toNat : Int) = 0 by simp]
    linear_combination half w * quarter_toInt w
  case minOnes => exact gives_muls_of_mul (by simp)
  case minOne => exact gives_muls_one_of_neg (minNeg_toInt_neg w)
  case minMax =>
    obtain ⟨hi, lo, hgives, hsint⟩ := gives_muls_sint w (minNeg w) (maxPos w)
    exact ⟨hi, lo, hgives, by rw [hsint, minNeg_toInt, maxPos_toInt, neg_mul]⟩
  case xZero => exact gives_muls_of_mul (by simp)
  case onesOnes => exact gives_muls_of_mul (by simp [Nat.one_mod_two_pow w.bits_pos])
  case onesOne => exact gives_muls_one_of_neg (by rw [ones_toInt]; decide)
  case range =>
    obtain ⟨hlower, hupper⟩ :=
      mul_mem_signed_range (BitVec.le_toInt X) BitVec.toInt_le (BitVec.le_toInt Y) BitVec.toInt_le
    rw [← fullProduct_ss_sint w.bits_pos] at hlower hupper
    refine ⟨_, _, gives_muls w X Y, hlower, hupper, ?_⟩
    rw [fullProduct_lo, BitVec.ofNat_mul, BitVec.ofNat_toNat, BitVec.ofNat_toNat, BitVec.setWidth_eq,
      BitVec.setWidth_eq]
  case xOne => exact gives_muls_one w X
  case square =>
    obtain ⟨hi, lo, hgives, hsint⟩ := gives_muls_sint w X X
    exact ⟨hi, lo, hgives, hsint ▸ mul_self_nonneg _⟩
  case comm => rw [gives_muls w X Y s, gives_muls w Y X s, fullProduct_ss_comm]
  case at8 => exact gives_muls_of_mul (w := .w8) (X := 0x80#8) (Y := 0x7F#8) (by decide)

end Sys2Proof

/-! ### The product of a signed and an unsigned operand against the other two (R66, R67) -/

namespace Sys2Proof

section
variable {n : Nat} {x y : BitVec n}

/-- The two readings of an operand agree when its sign bit is clear (R4, R5). -/
theorem readAs_eq_toNat_of_msb {v : BitVec n} (h : v.msb = false) (signed : Bool) : readAs signed v = v.toNat := by
  cases signed
  · rfl
  · exact BitVec.toInt_eq_toNat_of_msb h

/-- With X non-negative the signed reading of X changes nothing (R66). -/
theorem fullProduct_su_eq_uu (h : x.msb = false) : fullProduct .su x y = fullProduct .uu x y := by
  simp only [fullProduct, exactProduct, readAs_eq_toNat_of_msb h, Signedness.ySigned]

/-- With the top bit of Y clear the unsigned reading of Y changes nothing (R66). -/
theorem fullProduct_su_eq_ss (h : y.msb = false) : fullProduct .su x y = fullProduct .ss x y := by
  simp only [fullProduct, exactProduct, readAs_eq_toNat_of_msb h, Signedness.xSigned]

/-- Every full product has the low limb bits_n(uint(x)·uint(y)) (R67). -/
theorem fullProduct_lo_eq_ofNat (sg : Signedness) (x y : BitVec n) :
    (fullProduct sg x y).lo = BitVec.ofNat n (x.toNat * y.toNat) := by
  rw [fullProduct_lo, BitVec.ofNat_mul, BitVec.ofNat_toNat, BitVec.ofNat_toNat, BitVec.setWidth_eq,
    BitVec.setWidth_eq]

/-- A number from −m to m − 1 times one from 0 to k lies from −m·k to (m − 1)·k (R66). -/
theorem mul_mem_mixed_range {m k a b : Int} (hm : 1 ≤ m) (ha : -m ≤ a) (ha' : a ≤ m - 1) (hb : 0 ≤ b)
    (hb' : b ≤ k) : -(m * k) ≤ a * b ∧ a * b ≤ (m - 1) * k := by
  constructor
  · calc -(m * k) ≤ -(m * b) := neg_le_neg (mul_le_mul_of_nonneg_left hb' (by omega))
      _ = -m * b := (neg_mul m b).symm
      _ ≤ a * b := mul_le_mul_of_nonneg_right ha hb
  · exact mul_le_mul ha' hb' hb (by omega)

end

namespace Spec

/-- All ones read unsigned is the largest w-bit value. -/
@[simp] theorem ones_toNat (w : Width) : ((ones w).toNat : Int) = 2 ^ w.bits - 1 := by cases w <;> rfl

theorem one_le_half (w : Width) : 1 ≤ half w := by cases w <;> decide

end Spec

end Sys2Proof

/-! ### Proofs of 42_signed_unsigned.md: MULSU and the common low limb -/

namespace Sys2Proof
open Machine Spec

/-- MULSU on w-bit operands completes with the limbs of their mixed product (R65). -/
theorem gives_mulsu (w : Width) (X Y : BitVec w.bits) :
    Gives (.mulsu w (w.word X) (w.word Y)) w (fullProduct .su X Y).hi (fullProduct .su X Y).lo := by
  intro s
  rw [exec_mulsu, portValue_word, portValue_word]
  rfl

/-- MULSU completes with any limbs that hold the exact product of X read signed and Y read unsigned (R65). -/
theorem gives_mulsu_of_mul {w : Width} {X Y hi lo : BitVec w.bits}
    (h : hi.toInt * 2 ^ w.bits + (lo.toNat : Int) = X.toInt * (Y.toNat : Int)) :
    Gives (.mulsu w (w.word X) (w.word Y)) w hi lo := by
  have hsint : (Wide.mk hi lo).sint = X.toInt * (Y.toNat : Int) := (Wide.sint_eq w.bits_pos _).trans h
  have hproduct : fullProduct .su X Y = ⟨hi, lo⟩ := Wide.ofInt_of_sint_eq hsint
  simpa [hproduct] using gives_mulsu w X Y

/-- MULSU completes with limbs whose signed reading is the exact product, whatever form z gives it (R65). -/
theorem gives_mulsu_sint {w : Width} {X Y : BitVec w.bits} {z : Int} (h : X.toInt * (Y.toNat : Int) = z) :
    ∃ hi lo, Gives (.mulsu w (w.word X) (w.word Y)) w hi lo ∧ (Wide.mk hi lo).sint = z :=
  ⟨_, _, gives_mulsu w X Y, (fullProduct_su_sint w.bits_pos X Y).trans h⟩

/-- Settles O13: the command words are MULSU's, the limbs are the mixed path's, and the path is exact. -/
theorem mulsuWritesTheExactProduct : Obligations.MulsuWritesTheExactProduct := by
  refine ⟨fun w X Y s => ⟨?command, ?limbs, signedUnsignedPath_sint w X Y⟩, ?worked⟩
  case command => exact decode_commandWord (high := false) (sgn := 0b10#2) rfl (by cases w <;> rfl) X Y
  case limbs =>
    rw [signedUnsignedPath_eq_fullProduct w.half_add_half w.bits_pos]
    exact gives_mulsu w X Y s
  case worked => exact gives_mulsu_of_mul (w := .w8) (X := 0x80#8) (Y := 0xFE#8) (by decide)

/-- Settles O29: each listed result holds the exact mixed product, and where a sign bit is clear the two
readings of that operand agree. -/
theorem mulsuLaws : Obligations.MulsuLaws := by
  refine ⟨fun w X Y => ⟨?minOnes, ?maxOnes, ?onesOnes, ?xZero, ?xOne, fun hX s => ?asMulu, fun hY s => ?asMuls,
    ?range⟩, ?minAt8, ?maxAt8, ?onesAt8⟩
  case minOnes => exact gives_mulsu_sint (by rw [minNeg_toInt, ones_toNat, neg_mul])
  case maxOnes => exact gives_mulsu_sint (by rw [maxPos_toInt, ones_toNat])
  case onesOnes => exact gives_mulsu_sint (by rw [ones_toInt, ones_toNat, neg_one_mul])
  case xZero => exact gives_mulsu_of_mul (by simp)
  case xOne => exact gives_mulsu_of_mul (by simp [fill_msb_toInt, Nat.one_mod_two_pow w.bits_pos])
  case asMulu => simp only [exec_mulsu, exec_mulu, portValue_word, fullProduct_su_eq_uu hX]
  case asMuls => simp only [exec_mulsu, exec_muls, portValue_word, fullProduct_su_eq_ss hY]
  case range =>
    have hY : (Y.toNat : Int) ≤ 2 ^ w.bits - 1 := Int.le_sub_one_of_lt (by exact_mod_cast Y.isLt)
    obtain ⟨hi, lo, hgives, hsint⟩ := gives_mulsu_sint (X := X) (Y := Y) rfl
    refine ⟨hi, lo, hgives, ?_⟩
    rw [hsint]
    exact mul_mem_mixed_range (one_le_half w) (BitVec.le_toInt X) BitVec.toInt_le (Int.natCast_nonneg _) hY
  case minAt8 => exact gives_mulsu_of_mul (w := .w8) (X := 0x80#8) (Y := 0xFF#8) (by decide)
  case maxAt8 => exact gives_mulsu_of_mul (w := .w8) (X := 0x7F#8) (Y := 0xFF#8) (by decide)
  case onesAt8 => exact gives_mulsu_of_mul (w := .w8) (X := 0xFF#8) (Y := 0xFF#8) (by decide)

/-- Settles O31: modulo 2^w the signed and the unsigned reading of an operand agree, so every full product
has the same low limb. -/
theorem lowHalfIgnoresSignedness : Obligations.LowHalfIgnoresSignedness := by
  intro w X Y
  refine ⟨⟨(kernel X Y).hi, ?mulu⟩, ⟨(fullProduct .ss X Y).hi, ?muls⟩, ⟨(fullProduct .su X Y).hi, ?mulsu⟩⟩
  case mulu =>
    rw [← fullProduct_lo_eq_ofNat .uu, ← kernel_eq_fullProduct w.half_add_half w.bits_pos]
    exact gives_mulu_kernel w X Y
  case muls => exact fullProduct_lo_eq_ofNat .ss X Y ▸ gives_muls w X Y
  case mulsu => exact fullProduct_lo_eq_ofNat .su X Y ▸ gives_mulsu w X Y

/-- Settles O30: both worked values are exact products with X read signed, and MULSU of B and A reads B
signed and A unsigned. -/
theorem mulsuIsAsymmetric : Obligations.MulsuIsAsymmetric := by
  refine ⟨?minusOne, ?swapped, fun w A B => ?product⟩
  case minusOne => exact gives_mulsu_of_mul (w := .w8) (X := 0xFF#8) (Y := 0x01#8) (by decide)
  case swapped => exact gives_mulsu_of_mul (w := .w8) (X := 0x01#8) (Y := 0xFF#8) (by decide)
  case product => exact gives_mulsu_sint (mul_comm ..)

end Sys2Proof

/-! ### The high limb as the floor of the product by 2^w (R68 to R75) -/

namespace Sys2Proof

section
variable {n : Nat}

theorem exactProduct_uu (x y : BitVec n) : exactProduct .uu x y = (x.toNat : Int) * (y.toNat : Int) := rfl

theorem exactProduct_ss (x y : BitVec n) : exactProduct .ss x y = x.toInt * y.toInt := rfl

theorem exactProduct_su (x y : BitVec n) : exactProduct .su x y = x.toInt * (y.toNat : Int) := rfl

theorem highProduct_ss_comm (x y : BitVec n) : highProduct .ss x y = highProduct .ss y x := by
  rw [highProduct_eq_fullProduct_hi, highProduct_eq_fullProduct_hi, fullProduct_ss_comm]

variable (h0 : 0 < n)
include h0

/-- The high limb read signed is the wide value divided by 2^n, rounded toward minus infinity (R6, R72). -/
theorem Wide.hi_toInt_eq_div (p : Wide n) : p.hi.toInt = p.sint / 2 ^ n := by
  have hlo : (p.lo.toNat : Int) < 2 ^ n := by exact_mod_cast p.lo.isLt
  rw [Wide.sint_eq h0, Int.mul_add_ediv_right _ _ (by positivity),
    Int.ediv_eq_zero_of_lt (Int.natCast_nonneg _) hlo, add_zero]

/-- The high limb of bits_2n(z) is bits_n of floor(z / 2^n), since z differs from the value of the limbs by
a multiple of 2^2n. -/
theorem Wide.ofInt_hi (z : Int) : (Wide.ofInt n z).hi = BitVec.ofInt n (z / 2 ^ n) := by
  set p := Wide.ofInt n z with hp
  obtain ⟨m, hm⟩ : ((2 ^ (n + n) : Nat) : Int) ∣ z - p.sint := by
    rw [Wide.sint, hp, Wide.ofInt_toBits, BitVec.toInt_ofInt]
    exact Int.dvd_self_sub_bmod
  have hz : z = p.sint + (2 ^ n : Nat) * m * 2 ^ n := by
    push_cast [pow_add] at hm ⊢
    linear_combination hm
  have hmul : BitVec.ofInt n ((2 ^ n : Nat) * m) = 0#n := by
    have hpow : BitVec.ofNat n (2 ^ n) = 0#n :=
      BitVec.eq_of_toNat_eq (by rw [BitVec.toNat_ofNat, Nat.mod_self, BitVec.toNat_zero])
    rw [BitVec.ofInt_mul, BitVec.ofInt_natCast, hpow, BitVec.zero_mul]
  rw [hz, Int.add_mul_ediv_right _ _ (by positivity), ← Wide.hi_toInt_eq_div h0, BitVec.ofInt_add, hmul,
    BitVec.ofInt_toInt, BitVec.add_zero]

/-- A product that is less by k·2^n has a high word that is less by k (R74). -/
theorem highProduct_eq_sub {sg sg' : Signedness} {x y : BitVec n} {k : Int}
    (h : exactProduct sg x y = exactProduct sg' x y - k * 2 ^ n) :
    highProduct sg x y = highProduct sg' x y - BitVec.ofInt n k := by
  simp only [highProduct_eq_fullProduct_hi, fullProduct, Wide.ofInt_hi h0]
  rw [h, sub_eq_add_neg, ← neg_mul, Int.add_mul_ediv_right _ _ (by positivity), BitVec.ofInt_add,
    BitVec.ofInt_neg, BitVec.sub_eq_add_neg]

/-- MULHSU's word is MULHU's less Y where X is negative (R74). -/
theorem highProduct_su_eq_sub (x y : BitVec n) :
    highProduct .su x y = highProduct .uu x y - gate x.msb y := by
  have hproduct : exactProduct .su x y = exactProduct .uu x y - ((gate x.msb y).toNat : Int) * 2 ^ n := by
    rw [exactProduct_su, exactProduct_uu, BitVec.toInt_eq_msb_cond]
    cases x.msb
    · simp [gate]
    · simp [gate, sub_mul, mul_comm (2 ^ n : Int)]
  rw [highProduct_eq_sub h0 hproduct, BitVec.ofInt_natCast, BitVec.ofNat_toNat, BitVec.setWidth_eq]

/-- MULHS's word is MULHSU's less X where Y is negative (R74). -/
theorem highProduct_ss_eq_sub (x y : BitVec n) :
    highProduct .ss x y = highProduct .su x y - gate y.msb x := by
  have hproduct : exactProduct .ss x y = exactProduct .su x y - (gate y.msb x).toInt * 2 ^ n := by
    rw [exactProduct_ss, exactProduct_su, BitVec.toInt_eq_msb_cond y]
    cases y.msb
    · simp [gate]
    · simp [gate, mul_sub]
  rw [highProduct_eq_sub h0 hproduct, BitVec.ofInt_toInt]

/-- MULHS's word read signed is the floor of the signed product by 2^n (R72). -/
theorem highProduct_ss_toInt (x y : BitVec n) : (highProduct .ss x y).toInt = x.toInt * y.toInt / 2 ^ n := by
  rw [highProduct_eq_fullProduct_hi, Wide.hi_toInt_eq_div h0, fullProduct_ss_sint h0]

/-- MULHSU's word read signed is the floor of the mixed product by 2^n (R73). -/
theorem highProduct_su_toInt (x y : BitVec n) :
    (highProduct .su x y).toInt = x.toInt * (y.toNat : Int) / 2 ^ n := by
  rw [highProduct_eq_fullProduct_hi, Wide.hi_toInt_eq_div h0, fullProduct_su_sint h0]

/-- A high word is the high limb of any wide value that read signed is the product (R72, R73). -/
theorem highProduct_eq_of_mul {sg : Signedness} {x y hi lo : BitVec n}
    (h : hi.toInt * 2 ^ n + (lo.toNat : Int) = exactProduct sg x y) : highProduct sg x y = hi := by
  rw [highProduct_eq_fullProduct_hi, fullProduct,
    Wide.ofInt_of_sint_eq (p := ⟨hi, lo⟩) ((Wide.sint_eq h0 _).trans h)]

end

namespace Spec

/-- The high limb is the sign fill of the low limb exactly when the wide value is the low limb read signed
(R75). -/
theorem hi_eq_fill_iff {w : Width} (p : Wide w.bits) : p.hi = fill w p.lo.msb ↔ p.sint = p.lo.toInt := by
  rw [Wide.sint_eq w.bits_pos, ← fill_msb_toInt w p.lo, ← BitVec.toInt_inj, add_left_inj,
    mul_left_inj' (by positivity)]

/-- A wide value is the sign extension of its low limb exactly when it is that limb read signed (R75). -/
theorem toBits_eq_signExtend_iff {w : Width} (p : Wide w.bits) :
    p.toBits = p.lo.signExtend (w.bits + w.bits) ↔ p.sint = p.lo.toInt := by
  rw [← BitVec.toInt_inj, BitVec.toInt_signExtend_of_le (Nat.le_add_right ..), Wide.sint]

/-- A wide value fits a signed w-bit value exactly when it is its low limb read signed (R75). -/
theorem sint_fits_iff {w : Width} (p : Wide w.bits) :
    (-half w ≤ p.sint ∧ p.sint < half w) ↔ p.sint = p.lo.toInt := by
  constructor
  · rintro ⟨hlo, hhi⟩
    have hlow : p.lo = BitVec.ofInt w.bits p.sint := by rw [← Wide.ofInt_lo, Wide.ofInt_of_sint_eq rfl]
    rw [hlow, BitVec.toInt_ofInt_eq_self w.bits_pos hlo hhi]
  · intro h
    rw [h]
    exact ⟨BitVec.le_toInt _, BitVec.toInt_lt⟩

/-- MULHSU reads only its first operand signed: −1 times 1 has high word −1, and 1 times 2^w − 1 has 0 (R73). -/
theorem highProduct_su_ones_one_ne_swapped (w : Width) :
    highProduct .su (ones w) 1#w.bits ≠ highProduct .su 1#w.bits (ones w) := by
  have hneg : highProduct .su (ones w) 1#w.bits = ones w := by
    apply highProduct_eq_of_mul w.bits_pos (lo := ones w)
    rw [exactProduct_su, ones_toInt, ones_toNat, BitVec.toNat_one w.bits_pos]
    ring
  have hpos : highProduct .su 1#w.bits (ones w) = 0#w.bits :=
    highProduct_eq_of_mul w.bits_pos (lo := ones w) (by simp [exactProduct_su])
  rw [hneg, hpos, ← BitVec.toInt_inj.ne, ones_toInt, BitVec.toInt_zero]
  decide

end Spec

end Sys2Proof

/-! ### Proofs of 43_high_word.md: MULHU, MULHS and MULHSU -/

namespace Sys2Proof
open Machine Spec

section
variable (w : Width) (X Y : BitVec w.bits)

/-- MULU on w-bit operands completes with the limbs of their unsigned product (R52). -/
theorem gives_mulu : Gives (.mulu w (w.word X) (w.word Y)) w (fullProduct .uu X Y).hi (fullProduct .uu X Y).lo :=
  kernel_eq_fullProduct w.half_add_half w.bits_pos X Y ▸ gives_mulu_kernel w X Y

/-- MULHU on w-bit operands completes with the high word of their unsigned product (R71). -/
theorem givesHigh_mulhu : GivesHigh (.mulhu w (w.word X) (w.word Y)) w (highProduct .uu X Y) := by
  intro s
  rw [exec_mulhu, portValue_word, portValue_word]
  rfl

/-- MULHS on w-bit operands completes with the high word of their signed product (R72). -/
theorem givesHigh_mulhs : GivesHigh (.mulhs w (w.word X) (w.word Y)) w (highProduct .ss X Y) := by
  intro s
  rw [exec_mulhs, portValue_word, portValue_word]
  rfl

/-- MULHSU on w-bit operands completes with the high word of their mixed product (R73). -/
theorem givesHigh_mulhsu : GivesHigh (.mulhsu w (w.word X) (w.word Y)) w (highProduct .su X Y) := by
  intro s
  rw [exec_mulhsu, portValue_word, portValue_word]
  rfl

end

/-- Settles O17: the high word, a shift of the exact product, is the high limb of the full product. -/
theorem highVariantsAgreeWithFullVariants : Obligations.HighVariantsAgreeWithFullVariants := by
  intro w X Y
  refine ⟨⟨_, _, gives_mulu w X Y, ?_⟩, ⟨_, _, gives_muls w X Y, ?_⟩, ⟨_, _, gives_mulsu w X Y, ?_⟩⟩
  all_goals rw [← highProduct_eq_fullProduct_hi]
  · exact ⟨givesHigh_mulhu w X Y, rfl⟩
  · exact ⟨givesHigh_mulhs w X Y, rfl⟩
  · exact ⟨givesHigh_mulhsu w X Y, rfl⟩

/-- Settles O14: the high path is the kernel's high limb, the quotient of the exact product. -/
theorem mulhuWritesTheHighWord : Obligations.MulhuWritesTheHighWord := by
  refine ⟨fun w X Y s => ?_, ?worked⟩
  case worked =>
    have hword : highProduct .uu 254#8 254#8 = 0xFC#8 := by decide
    exact hword ▸ givesHigh_mulhu .w8 254#8 254#8
  have hn := w.half_add_half
  have h0 := w.bits_pos
  refine ⟨?command, ?word, kernel_hi_toNat_eq_div hn h0 X Y, kernel_hi_eq_zero_iff hn h0 X Y, kernel_hi_le hn h0 X Y,
    ?largest, congrArg Wide.hi (kernel_comm hn h0 X Y)⟩
  case command => exact decode_commandWord (high := true) (sgn := 0b00#2) rfl (by cases w <;> rfl) X Y
  case word =>
    rw [unsignedHighPath_eq_highProduct hn h0]
    exact givesHigh_mulhu w X Y s
  case largest =>
    rw [unsignedHighPath, kernel_hi_toNat_eq_div hn h0]
    cases w <;> rfl

/-- Settles O15: the high path is the high word of the signed product, the floor of the product by 2^w, and
each listed word is the high limb of a listed product. -/
theorem mulhsWritesTheHighWord : Obligations.MulhsWritesTheHighWord := by
  refine ⟨fun w X Y s => ?_, ?worked⟩
  case worked =>
    have hword : highProduct .ss 0x80#8 0x80#8 = 0x40#8 := by decide
    exact hword ▸ givesHigh_mulhs .w8 0x80#8 0x80#8
  have h0 := w.bits_pos
  simp only [signedHighPath_eq_highProduct w.half_add_half h0]
  refine ⟨?command, givesHigh_mulhs w X Y s, highProduct_ss_toInt h0 X Y, highProduct_ss_comm X Y, ?zero, ?minMin,
    ?minOne, ?minOnes⟩
  case command => exact decode_commandWord (high := true) (sgn := 0b01#2) rfl (by cases w <;> rfl) X Y
  case zero => exact highProduct_eq_of_mul h0 (lo := 0) (by simp [exactProduct_ss])
  case minMin =>
    apply highProduct_eq_of_mul h0 (lo := 0)
    rw [exactProduct_ss, two_pow_bits_eq, minNeg_toInt, show ((0 : BitVec w.bits).toNat : Int) = 0 by simp]
    linear_combination half w * quarter_toInt w
  case minOne =>
    apply highProduct_eq_of_mul h0 (lo := minNeg w)
    rw [exactProduct_ss, two_pow_bits_eq, ones_toInt, minNeg_toInt, minNeg_toNat,
      show (1 : BitVec w.bits).toInt = 1 from one_toInt w]
    ring
  case minOnes => exact highProduct_eq_of_mul h0 (lo := minNeg w) (by simp [exactProduct_ss])

/-- Settles O16: the high path is the high word of the mixed product, the floor of the product by 2^w, and
all ones times one differs from one times all ones. -/
theorem mulhsuWritesTheHighWord : Obligations.MulhsuWritesTheHighWord := by
  have hpath (w : Width) := signedUnsignedHighPath_eq_highProduct w.half_add_half w.bits_pos
  refine ⟨fun w X Y s => ?_, fun w => ⟨ones w, 1#w.bits, ?swapped⟩, ?worked⟩
  case swapped => simpa only [hpath] using highProduct_su_ones_one_ne_swapped w
  case worked =>
    have hword : highProduct .su 0x80#8 0xFE#8 = 0x81#8 := by decide
    exact hword ▸ givesHigh_mulhsu .w8 0x80#8 0xFE#8
  have h0 := w.bits_pos
  simp only [hpath]
  refine ⟨?command, givesHigh_mulhsu w X Y s, highProduct_su_toInt h0 X Y, ?zero, ?minOnes⟩
  case command => exact decode_commandWord (high := true) (sgn := 0b10#2) rfl (by cases w <;> rfl) X Y
  case zero => exact highProduct_eq_of_mul h0 (lo := 0) (by simp [exactProduct_su])
  case minOnes =>
    apply highProduct_eq_of_mul h0 (lo := minNeg w)
    rw [exactProduct_su, minNeg_toInt, minNeg_toNat, ones_toNat]
    ring

/-- Settles O32: reading a negative operand signed takes 2^w times the other operand from the product, which
takes that operand from the high word. -/
theorem highWordRelations : Obligations.HighWordRelations := by
  intro w X Y
  have h0 := w.bits_pos
  refine ⟨highProduct .uu X Y, givesHigh_mulhu w X Y, ?_, ?_⟩
  · exact highProduct_su_eq_sub h0 X Y ▸ givesHigh_mulhsu w X Y
  · rw [← highProduct_su_eq_sub h0, ← highProduct_ss_eq_sub h0]
    exact givesHigh_mulhs w X Y

/-- Settles O33: the unsigned product fits when its quotient by 2^w is zero; a signed or mixed one when it is
its low limb read signed, which is when the high limb is that limb's sign fill. -/
theorem highWordShowsWhetherProductFits : Obligations.HighWordShowsWhetherProductFits := by
  intro w X Y
  have h0 := w.bits_pos
  refine ⟨⟨unsignedHighPath X Y, ?uu, (kernel_hi_eq_zero_iff w.half_add_half h0 X Y).symm⟩,
    ⟨_, _, gives_muls w X Y, ?ss, ?extension⟩, ⟨_, _, gives_mulsu w X Y, ?su⟩⟩
  case uu => exact unsignedHighPath_eq_highProduct w.half_add_half h0 X Y ▸ givesHigh_mulhu w X Y
  case ss => rw [← fullProduct_ss_sint h0, sint_fits_iff, hi_eq_fill_iff]
  case extension => exact (hi_eq_fill_iff _).trans (toBits_eq_signExtend_iff _).symm
  case su => rw [← fullProduct_su_sint h0, sint_fits_iff, hi_eq_fill_iff]

/-- Settles O36: a high variant leaves RES.lo empty at its own width, so the read that follows faults. -/
theorem highVariantsLeaveNoLowHalf : Obligations.HighVariantsLeaveNoLowHalf := by
  intro i s rest hwf hhigh hp
  obtain ⟨-, hcompletes⟩ := everyIssuedOperationCompletes i s _ hwf hp
  obtain ⟨hi, hstep⟩ := hcompletes hhigh
  set t := afterHigh { s with pending := .readLo i.width :: rest } i.width hi
  obtain ⟨-, -, hread⟩ := readsOfResCells t rest i.width
  obtain ⟨hfault, -⟩ := hread rfl
  exact ⟨⟨hi, hstep⟩, (run_of_next 1 hstep).trans (run_of_fault 0 (hfault rfl (.inr rfl)))⟩

end Sys2Proof

/-! ### Proofs of 60_exceptions.md: the idle step -/

namespace Sys2Proof.Machine

/-- The other half of `step_of_pending`: the machine does nothing on its own (R87, R94, log 7). -/
theorem step_of_no_pending {s : State} (h : s.pending = []) : step s = .next s := by
  simp [step, h]

end Sys2Proof.Machine

namespace Sys2Proof

/-- Settles O9: the step finds no request to perform and answers the state it met. -/
theorem idleBlockKeepsItsState : Obligations.IdleBlockKeepsItsState :=
  fun _ hp => Machine.step_of_no_pending hp

end Sys2Proof

/-! ### Proofs of 70_reset_and_hazards.md: results, runs and reads after an operation -/

namespace Sys2Proof.Machine

/-- A read faults exactly when it gives a fault. -/
theorem logRead_fault {α : Type} {s : State} {tag : α → ReadValue} {o : Host.Outcome α Fault Refusal} {f : Fault} :
    s.logRead tag o = .fault f ↔ o = .fault f := by
  cases o <;> simp [State.logRead]

/-- A read is refused exactly when it gives a refusal. -/
theorem logRead_refused {α : Type} {s : State} {tag : α → ReadValue} {o : Host.Outcome α Fault Refusal}
    {r : Refusal} : s.logRead tag o = .refused r ↔ o = .refused r := by
  cases o <;> simp [State.logRead]

/-- A value that a limb cell holds is read at the width tag, from that cell (R14). -/
theorem Res.read_of_limb {r : Res} {w : Width} {v : Word} (hw : r.w = some w) (hv : r.hi = some v ∨ r.lo = some v) :
    r.readHi w = .next v ∨ r.readLo w = .next v :=
  hv.imp (fun h => readCell_next.mpr ⟨h, hw⟩) (fun h => readCell_next.mpr ⟨h, hw⟩)

/-- A step whose oldest request is no operation is refused, for the decoder's reason (R40, R78). -/
theorem step_of_issue_error {s : State} {t : Transaction} {e : DecodeError} {rest : List Event}
    (hp : s.pending = .issue t :: rest) (hd : decode t = .error e) : step s = .refused (refusalOf e) := by
  rw [step_of_pending hp]
  simp [perform, performIssue, hd]

/-- A run of one step is that step. -/
theorem run_one (s : State) : core.run 1 s = step s := by
  cases h : step s with
  | next t => exact run_of_next 0 h
  | fault f => exact run_of_fault 0 h
  | refused r => exact run_of_refused 0 h

/-- A run that reaches t goes on as a run from t. -/
theorem run_add {j : Nat} {s t : State} (h : core.run j s = .next t) (k : Nat) :
    core.run (j + k) s = core.run k t := by
  induction j generalizing s with
  | zero =>
    cases h
    rw [Nat.zero_add]
  | succ j ih =>
    rw [Nat.succ_add]
    cases hs : step s with
    | next u =>
      rw [run_of_next _ hs] at h ⊢
      exact ih h
    | fault f =>
      rw [run_of_fault _ hs] at h
      cases h
    | refused r =>
      rw [run_of_refused _ hs] at h
      cases h

/-- The request that follows an operation meets the operation's result, in RES and returned (R90). -/
theorem run_issue_then {i : Instr} (hwf : i.wellFormed = true) {s : State} {e : Event} {rest : List Event}
    (hp : s.pending = .issue (encode i) :: e :: rest) :
    core.run 2 s = perform e { s with
      pending := rest, res := i.result.leaves, returned := s.returned ++ [i.result] } := by
  have hstep := (step_of_issue hp (decode_encode hwf)).trans (exec_eq_result i _)
  rw [run_of_next 1 hstep, run_one, step_of_pending rfl]

end Sys2Proof.Machine

namespace Sys2Proof
open Machine Spec

section
variable (i : Instr)

/-- Every operation leaves its own width in RES.w (R92). -/
theorem Instr.result_leaves_w : i.result.leaves.w = some i.width := by
  cases i <;> rfl

/-- Every operation leaves a high limb in RES.hi (R12, R13). -/
theorem Instr.result_leaves_hi : ∃ h, i.result.leaves.hi = some h := by
  cases i <;> exact ⟨_, rfl⟩

variable {i}

/-- A full variant leaves both limbs of a wide value (R12). -/
theorem Instr.result_leaves_of_full (h : i.high = false) : ∃ p : Wide i.width.bits,
    i.result.leaves = ⟨some i.width, some (i.width.word p.hi), some (i.width.word p.lo)⟩ :=
  ⟨fullProduct i.signedness (portValue i.width i.x) (portValue i.width i.y),
    by simp [Instr.result, h, Returned.leaves]⟩

/-- A high variant leaves its high limb alone (R13, R70). -/
theorem Instr.result_leaves_of_high (h : i.high = true) : ∃ hi : BitVec i.width.bits,
    i.result.leaves = ⟨some i.width, some (i.width.word hi), none⟩ :=
  ⟨highProduct i.signedness (portValue i.width i.x) (portValue i.width i.y),
    by simp [Instr.result, h, Returned.leaves]⟩

end

/-- MULHU's word is the quotient of the exact product by 2^n (R71). -/
theorem highProduct_uu_toNat (w : Width) (x y : BitVec w.bits) :
    (highProduct .uu x y).toNat = x.toNat * y.toNat / 2 ^ w.bits := by
  rw [← unsignedHighPath_eq_highProduct w.half_add_half w.bits_pos]
  exact kernel_hi_toNat_eq_div w.half_add_half w.bits_pos x y

/-- Settles O19: the returned value is the operation's own result. -/
theorem resultDependsOnOperationAlone : Obligations.ResultDependsOnOperationAlone :=
  fun i => ⟨i.result, exec_eq_result i⟩

/-- Settles O37: the read is performed on the RES that the result leaves. -/
theorem nextReadSeesTheResult : Obligations.NextReadSeesTheResult := by
  intro i hwf
  have hw := i.result_leaves_w
  obtain ⟨h, hh⟩ := i.result_leaves_hi
  refine ⟨i.result, hw, fun s rest =>
    ⟨fun hp => ?width, ⟨h, hh, fun hp => ?hi⟩, fun hfull => ?full, fun hhigh => ?high⟩⟩
  case width => exact (run_issue_then hwf hp).trans (logRead_next.mpr ⟨_, readWidth_next.mpr hw, rfl⟩)
  case hi => exact (run_issue_then hwf hp).trans (logRead_next.mpr ⟨h, readCell_next.mpr ⟨hh, hw⟩, rfl⟩)
  case full =>
    obtain ⟨p, hres⟩ := Instr.result_leaves_of_full hfull
    have hlo : i.result.leaves.readLo i.width = .next (i.width.word p.lo) :=
      readCell_next.mpr ⟨congrArg Res.lo hres, hw⟩
    have hview : i.result.leaves.readView Config.byteOrder = .next (p.view Config.byteOrder) := by
      rw [hres, Res.readView_word]
    exact ⟨p, hres, fun hp => (run_issue_then hwf hp).trans (logRead_next.mpr ⟨_, hlo, rfl⟩),
      fun hp => (run_issue_then hwf hp).trans (logRead_next.mpr ⟨_, hview, rfl⟩)⟩
  case high =>
    obtain ⟨_, hres⟩ := Instr.result_leaves_of_high hhigh
    have hlo : i.result.leaves.readLo i.width = .fault .resLoEmpty :=
      readCell_fault.mpr ⟨congrArg Res.lo hres, rfl⟩
    have hview : i.result.leaves.readView Config.byteOrder = .refused .noByteView := by
      rw [hres, Res.readView_without_lo]
    exact ⟨fun hp => (run_issue_then hwf hp).trans (logRead_fault.mpr hlo),
      fun hp => (run_issue_then hwf hp).trans (logRead_refused.mpr hview)⟩

/-- Settles O49: the run performs the operations in order, and goes on to the reserved command, whose step
is refused. -/
theorem runReturnsEachResultInOrder : Obligations.RunReturnsEachResultInOrder := by
  refine ⟨Instr.result, exec_eq_result, fun is s rest hwf hp => run_issues hwf hp, ?reserved⟩
  case reserved =>
    intro is s rest t k hwf hd hp hk
    obtain ⟨m, rfl⟩ := Nat.exists_eq_add_of_lt hk
    exact (run_add (run_issues hwf hp) (m + 1)).trans (run_of_refused m (step_of_issue_error rfl hd))

/-- Settles O52: a limb read from RES is a w-bit value, and each operation gives its exact product on any
two of them, in any state. -/
theorem readValuesMayBeOperands : Obligations.ReadValuesMayBeOperands := by
  intro s w A B hw hA hB
  have h0 := w.bits_pos
  exact ⟨Res.read_of_limb hw hA, Res.read_of_limb hw hB,
    ⟨_, kernel_uint w.half_add_half h0 A B, gives_mulu_kernel w A B s⟩,
    ⟨_, fullProduct_ss_sint h0 A B, gives_muls w A B s⟩,
    ⟨_, fullProduct_su_sint h0 A B, gives_mulsu w A B s⟩,
    ⟨_, highProduct_uu_toNat w A B, givesHigh_mulhu w A B s⟩,
    ⟨_, highProduct_ss_toInt h0 A B, givesHigh_mulhs w A B s⟩,
    ⟨_, highProduct_su_toInt h0 A B, givesHigh_mulhsu w A B s⟩⟩

end Sys2Proof

/-! ### Proofs of 30_encoding.md: transactions that the ports cannot carry -/

namespace Sys2Proof

/-- Operands that do not fit the ports are refused (log 3). -/
theorem checkOperands_of_not_wellFormed {i : Instr} (h : i.wellFormed = false) :
    checkOperands i = .error .operandTooWide := by
  simp [checkOperands, h]

/-- The command word of an operation selects it again, so only the check of its operands decides whether its
encoding decodes (R34, R37). -/
theorem decode_encode_eq_checkOperands (i : Instr) : decode (encode i) = checkOperands i := by
  obtain ⟨hcmd, -, hsel⟩ := commandWord_statement i
  obtain ⟨operation, hop, hi⟩ := Option.map_eq_some_iff.mp hsel
  rw [decode, if_pos hcmd, decodeCommand]
  simp only [encode, setWidth_setWidth_command, hop, hi]

/-- A command value of more than 5 bits is no command word (log 2). -/
theorem decode_of_wide_command {t : Transaction} (h : 32 ≤ t.cmd.toNat) : decode t = .error .notACommandWord :=
  if_neg h.not_gt

/-- Settles O6: the encoding of an operation decodes as the check of its operands does, and the decoder reads
no command beyond 5 bits. -/
theorem inexpressibleTransactionsAreRefused : Obligations.InexpressibleTransactionsAreRefused :=
  ⟨fun i hwf => (decode_encode_eq_checkOperands i).trans (checkOperands_of_not_wellFormed hwf),
    fun _ hcmd => decode_of_wide_command hcmd⟩

end Sys2Proof
